-- ==== Sys2Proof/Word.lean ====
section
/-!
DEFINITION. The words of `bitstream_codec` (spec/00_scope.md R6): a bit is a `Bool`, a byte is 8 bits, a
nibble is 4 bits.  All values are unsigned (R7).
-/

namespace Sys2Proof

/-- A byte, 8 bits, value 0 to 255 (R6). -/
abbrev Byte := BitVec 8

/-- A nibble, 4 bits: a unit, a command code, a tilt nibble, an operation select (R6, R7). -/
abbrev Nibble := BitVec 4

end Sys2Proof
end

