-- ==== Sys2Proof/Syntax.lean ====
section
/-!
DEFINITION. The records that cross the interface of `bitstream_codec` and the ONE inductive of its
instructions: one constructor per row of spec/opcode_table.json, 7 of format WIRE40 and 16 of format REQ
(spec/30_encoding.md section 7).
-/

namespace Sys2Proof

/-- A command name (10_state.md R28, 30_encoding.md R70): the five names of the command table, the legacy
alias `my`, the two deep-travel aliases, and the seven unrecognised names that NameCodes 9 to 15 stand for
(`other k` is NameCode `9 + k`). -/
inductive CmdName where
  | up | down | idle | confirm | setLimit
  | my | deepUp | deepDown
  | other (k : Fin 7)
  deriving DecidableEq, Repr, Inhabited

/-- The direction of a transaction, `Ctl.dir` (R24): inbound (radio to host) or outbound. -/
inductive Direction where
  | inbound | outbound
  deriving DecidableEq, Repr, Inhabited

/-- The control input `Ctl`, four one-bit fields sampled with the request (R24). -/
structure Ctl where
  rot180 : Bool
  invertTilt : Bool
  dir : Direction
  pairing : Bool
  deriving DecidableEq, Repr, Inhabited

/-- The data object (R28): a record of optional fields.  A tilt flag has presence only (R28, decision D24);
an absent field is `none`. -/
structure DataObject where
  cmd : Option CmdName := none
  state : Option CmdName := none
  direction : Option CmdName := none
  tilt : Option CmdName := none
  tiltUp : Bool := false
  tiltDown : Bool := false
  address : Option (BitVec 16) := none
  unit : Option (BitVec 4) := none
  group : Option Bool := none
  id : Option (BitVec 20) := none
  deriving DecidableEq, Repr, Inhabited

/-- The named no-result outcomes (60_exceptions.md R181 to R185). -/
inductive Reason where
  | malformedPayload
  | unknownCommandCode
  | unresolvableEncodeRequest
  | noMatch
  | badOp
  deriving DecidableEq, Repr, Inhabited

/-- The `req_*` ports of one request (10_state.md R33): operation select, packed control input, length and
vector of the sequence operand, packed data object, nibble operand.  `n` and `seq` are numbers because their
port widths depend on the open parameter MAXBYTES; vector bit `i` of `seq` is `seq.testBit i` (R75). -/
structure Request where
  op : Nibble
  ctl : BitVec 4 := 0
  n : Nat := 0
  seq : Nat := 0
  obj : BitVec 64 := 0
  nib : Nibble := 0
  deriving DecidableEq, Repr, Inhabited

/-- A bare wire frame of 5 bytes, byte 0 first on the wire (30_encoding.md R60). -/
structure WireFrame where
  b0 : Byte
  b1 : Byte
  b2 : Byte
  b3 : Byte
  b4 : Byte
  deriving DecidableEq, Repr, Inhabited

/-- What the environment offers while `req_valid = 1`: a word of one of the two formats of
spec/opcode_table.json.  A `request` is the `req_*` ports of R33.  A `wire` word is a bare 40-bit frame, "the
block's counterpart of an instruction word" (30_encoding.md, opening); it stands for the FDEC request that
carries its five bytes.  DESIGN CHOICE (notes/assumptions/2.md, safe). -/
inductive Offer where
  | request (r : Request)
  | wire (f : WireFrame)
  deriving DecidableEq, Repr, Inhabited

/-- The `rsp_*` ports of one response (10_state.md R33). -/
structure Rsp where
  ok : Bool
  reason : BitVec 3
  n : Nat
  seq : Nat
  rn : BitVec 3
  res : BitVec 7
  obj : BitVec 64
  nib : Nibble
  byte : Byte
  bool : Bool
  deriving DecidableEq, Repr, Inhabited

/-- The instructions: one constructor per row of spec/opcode_table.json.

The WIRE40 rows carry the free fields of their row's `encoding`: address, unit, the tilt nibble where the row
leaves it free, the unused nibble and the checksum (R60).  The REQ rows carry the operands their operation
reads (R73, column "operands read"). -/
inductive Instr where
  /-- `UP.T`: code 0xC, tilt nibble 0x1 (R62, R63). -/
  | upT (address : BitVec 16) (unit unused : Nibble) (checksum : Byte)
  /-- `DOWN.T`: code 0x1, tilt nibble 0x1. -/
  | downT (address : BitVec 16) (unit unused : Nibble) (checksum : Byte)
  /-- `UP`: code 0xC, tilt nibble any value but 0x1 (by row order). -/
  | up (address : BitVec 16) (unit tilt unused : Nibble) (checksum : Byte)
  /-- `DOWN`: code 0x1, tilt nibble any value but 0x1 (by row order). -/
  | down (address : BitVec 16) (unit tilt unused : Nibble) (checksum : Byte)
  /-- `IDLE`: code 0x5, tilt nibble not inspected. -/
  | idle (address : BitVec 16) (unit tilt unused : Nibble) (checksum : Byte)
  /-- `CONFIRM`: code 0x4, tilt nibble not inspected. -/
  | confirm (address : BitVec 16) (unit tilt unused : Nibble) (checksum : Byte)
  /-- `SET_LIMIT`: code 0x2, tilt nibble not inspected. -/
  | setLimit (address : BitVec 16) (unit tilt unused : Nibble) (checksum : Byte)
  /-- `RESERVED`, select 0x0 (R185). -/
  | reserved
  /-- `B2BY`, select 0x1: bit sequence to byte sequence and residue (R100). -/
  | b2by (bits : List Bool)
  /-- `BY2B`, select 0x2: byte sequence to bit sequence (R101). -/
  | by2b (bytes : List Byte)
  /-- `CSUM`, select 0x3: checksum of a byte sequence (R110). -/
  | csum (bytes : List Byte)
  /-- `VERIFY`, select 0x4: check a byte sequence against its last byte (R111). -/
  | verify (bytes : List Byte)
  /-- `CMDNAME`, select 0x5: command code to name (R120). -/
  | cmdname (code : Nibble)
  /-- `CMDCODE`, select 0x6: command name to code; `none` is NameCode 0 (R121). -/
  | cmdcode (name : Option CmdName)
  /-- `FDEC`, select 0x7: byte sequence to data object (R130). -/
  | fdec (bytes : List Byte)
  /-- `FENC`, select 0x8: data object to 5 bytes (R131). -/
  | fenc (o : DataObject)
  /-- `NORM`, select 0x9: the normalization function (R154). -/
  | norm (o : DataObject) (ctl : Ctl)
  /-- `RX`, select 0xA: the inbound pipeline (R170). -/
  | rx (bits : List Bool) (ctl : Ctl)
  /-- `TX`, select 0xB: the outbound pipeline (R171). -/
  | tx (o : DataObject) (ctl : Ctl)
  /-- `ROT`, select 0xC: rotation by 180 degrees (R151).  It takes the sampled `Ctl`, as the other readers that the
  table of R24 names do; `dir` alone decides its result (R151, R73, notes/assumptions/12.md). -/
  | rot (o : DataObject) (ctl : Ctl)
  /-- `TINV`, select 0xD: tilt inversion (R152). -/
  | tinv (o : DataObject)
  /-- `ALIAS`, select 0xE: the legacy alias `my` (R153). -/
  | legacyAlias (o : DataObject)
  /-- `PSYN`, select 0xF: pairing-mode synthesis (R150). -/
  | psyn (o : DataObject)
  deriving DecidableEq, Repr

end Sys2Proof
end

