-- ==== Sys2Proof/Config.lean ====
section
/-!
DEFINITION. What an implementation of `bitstream_codec` fixes and the spec leaves open: the parameters
MAXBYTES and LAT of spec/00_scope.md R13, and the free values of the response outputs while `rsp_valid = 0`.
Each is an opaque constant with no body: a claim holds whatever its value.
-/

namespace Sys2Proof

/-- `MAXBYTES - 5`.  MAXBYTES is OPEN with the one constraint `MAXBYTES >= 5` (R13, decision D3), so the
excess over 5 is any natural number (notes/assumptions/3.md). -/
opaque Config.extraBytes : Nat

/-- MAXBYTES, the greatest number of complete bytes in one byte sequence operand (R13). -/
def Config.maxBytes : Nat := Config.extraBytes + 5

/-- MAXBITS = 8 * MAXBYTES + 7 (R13). -/
def Config.maxBits : Nat := 8 * Config.maxBytes + 7

/-- LAT, the latency of a transaction in clock cycles: OPEN and finite (R13, R214, decision D20).  The argument
is the model's cycle counter, so that two transactions may differ (notes/assumptions/4.md). -/
opaque Config.lat : Nat → Nat

/-- What the `rsp_*` outputs other than `rsp_valid` show in a cycle with `rsp_valid = 0`: unspecified (R35,
93_implementation_defined.md U13 "any value").  The argument is the model's cycle counter
(notes/assumptions/5.md). -/
opaque Config.undriven : Nat → Rsp

end Sys2Proof
end

