-- ==== Sys2Proof/WellFormed.lean ====
section
/-!
DEFINITION. Which instruction terms the block's encodings can carry (spec/30_encoding.md R60, R63, R75).
-/

namespace Sys2Proof

/-- A bit sequence the interface can carry: at most MAXBITS bits (R31, R75). -/
def bitsFit (bits : List Bool) : Bool := decide (bits.length ≤ Config.maxBits)

/-- A byte sequence the interface can carry: at most MAXBYTES bytes (R31, R75). -/
def bytesFit (bytes : List Byte) : Bool := decide (bytes.length ≤ Config.maxBytes)

/-- A term is well formed when its sequence operand fits the interface and, for the full-travel rows `UP` and
`DOWN`, when its tilt nibble is not the 0x1 that selects the more specific tilt row (30_encoding.md R63 and
section 7, "listed most specific first"). -/
def Instr.wellFormed : Instr → Bool
  | .upT _ _ _ _ => true
  | .downT _ _ _ _ => true
  | .up _ _ tilt _ _ => tilt != 1
  | .down _ _ tilt _ _ => tilt != 1
  | .idle _ _ _ _ _ => true
  | .confirm _ _ _ _ _ => true
  | .setLimit _ _ _ _ _ => true
  | .reserved => true
  | .b2by bits => bitsFit bits
  | .by2b bytes => bytesFit bytes
  | .csum bytes => bytesFit bytes
  | .verify bytes => bytesFit bytes
  | .cmdname _ => true
  | .cmdcode _ => true
  | .fdec bytes => bytesFit bytes
  | .fenc _ => true
  | .norm _ _ => true
  | .rx bits _ => bitsFit bits
  | .tx _ _ => true
  | .rot _ _ => true
  | .tinv _ => true
  | .legacyAlias _ => true
  | .psyn _ => true

end Sys2Proof
end

