-- ==== Sys2Proof/Decode.lean ====
section
/-!
DEFINITION. The encodings of `bitstream_codec` in both directions (spec/30_encoding.md): NameCodes (R70),
packed data objects (R71), packed control input (R72), sequence vectors (R75), the wire frame (R60, R67, R68);
then the decoder, total and rejecting by name, and after it the encoder.
-/

namespace Sys2Proof

/-! ### Names, control input, data objects -/

/-- A field `v` of an `n`-bit word, its bit 0 at bit `lo` of the word and every other bit 0 (R7 `<<`, `zext`). -/
def place (n lo : Nat) {w : Nat} (v : BitVec w) : BitVec n := v.setWidth n <<< lo

/-- The optional command name a NameCode stands for (R70). -/
def nameOfCode (c : Nibble) : Option CmdName :=
  match c.toNat with
  | 0 => none
  | 1 => some .up
  | 2 => some .down
  | 3 => some .idle
  | 4 => some .confirm
  | 5 => some .setLimit
  | 6 => some .my
  | 7 => some .deepUp
  | 8 => some .deepDown
  | n => some (.other (Fin.ofNat 7 (n - 9)))

/-- The NameCode of an optional command name (R70). -/
def codeOfName : Option CmdName → Nibble
  | none => 0
  | some .up => 1
  | some .down => 2
  | some .idle => 3
  | some .confirm => 4
  | some .setLimit => 5
  | some .my => 6
  | some .deepUp => 7
  | some .deepDown => 8
  | some (.other k) => BitVec.ofNat 4 (9 + k.val)

/-- `Ctl.dir` from its bit: 0 inbound, 1 outbound (R72). -/
def dirOfBit (b : Bool) : Direction := if b then .outbound else .inbound

/-- The bit of `Ctl.dir` (R72). -/
def bitOfDir : Direction → Bool
  | .inbound => false
  | .outbound => true

/-- The packed control input read: bit 0 `rot180`, bit 1 `invert_tilt`, bit 2 `dir`, bit 3 `pairing` (R72). -/
def unpackCtl (c : BitVec 4) : Ctl :=
  { rot180 := c.getLsbD 0, invertTilt := c.getLsbD 1, dir := dirOfBit (c.getLsbD 2), pairing := c.getLsbD 3 }

/-- The packed control input written (R72). -/
def packCtl (c : Ctl) : BitVec 4 :=
  place 4 0 (BitVec.ofBool c.rot180) ||| place 4 1 (BitVec.ofBool c.invertTilt)
    ||| place 4 2 (BitVec.ofBool (bitOfDir c.dir)) ||| place 4 3 (BitVec.ofBool c.pairing)

/-- A field with a presence bit: the value bits count only when the presence bit is 1 (R71). -/
def present {α : Type} (flag : Bool) (v : α) : Option α := if flag then some v else none

/-- The packed data object read (R71).  The value bits of an absent field and the pad bit 63 are ignored. -/
def unpackObj (w : BitVec 64) : DataObject :=
  { cmd := nameOfCode (w.extractLsb' 0 4)
    state := nameOfCode (w.extractLsb' 4 4)
    direction := nameOfCode (w.extractLsb' 8 4)
    tilt := nameOfCode (w.extractLsb' 12 4)
    tiltUp := w.getLsbD 16
    tiltDown := w.getLsbD 17
    address := present (w.getLsbD 18) (w.extractLsb' 19 16)
    unit := present (w.getLsbD 35) (w.extractLsb' 36 4)
    group := present (w.getLsbD 40) (w.getLsbD 41)
    id := present (w.getLsbD 42) (w.extractLsb' 43 20) }

/-- The packed data object written (R71): the pad bit 63 is 0, and the value bits of an absent field are 0, so the
word is canonical. -/
def packObj (o : DataObject) : BitVec 64 :=
  place 64 0 (codeOfName o.cmd) ||| place 64 4 (codeOfName o.state)
    ||| place 64 8 (codeOfName o.direction) ||| place 64 12 (codeOfName o.tilt)
    ||| place 64 16 (BitVec.ofBool o.tiltUp) ||| place 64 17 (BitVec.ofBool o.tiltDown)
    ||| place 64 18 (BitVec.ofBool o.address.isSome) ||| place 64 19 (o.address.getD 0)
    ||| place 64 35 (BitVec.ofBool o.unit.isSome) ||| place 64 36 (o.unit.getD 0)
    ||| place 64 40 (BitVec.ofBool o.group.isSome) ||| place 64 41 (BitVec.ofBool (o.group.getD false))
    ||| place 64 42 (BitVec.ofBool o.id.isSome) ||| place 64 43 (o.id.getD 0)

/-! ### Sequence vectors -/

/-- The bit sequence of length `n` on a vector: element `i` is vector bit `i` (R75). -/
def bitsOfVector : Nat → Nat → List Bool
  | 0, _ => []
  | n + 1, v => v.testBit 0 :: bitsOfVector n (v / 2)

/-- The vector of a bit sequence; the bits at and above its length are 0 (R75). -/
def vectorOfBits : List Bool → Nat
  | [] => 0
  | b :: bs => b.toNat + 2 * vectorOfBits bs

/-- The byte sequence of length `n` on a vector: byte `k` is vector bits `8k+7 : 8k` (R75). -/
def bytesOfVector : Nat → Nat → List Byte
  | 0, _ => []
  | n + 1, v => BitVec.ofNat 8 v :: bytesOfVector n (v / 256)

/-- The vector of a byte sequence; the bits at and above its length are 0 (R75). -/
def vectorOfBytes : List Byte → Nat
  | [] => 0
  | b :: bs => b.toNat + 256 * vectorOfBytes bs

/-! ### The wire frame -/

/-- The high nibble of a byte, `b[7:4]` (R7). -/
def highNibble (b : Byte) : Nibble := b.extractLsb' 4 4

/-- The low nibble of a byte, `b[3:0]` (R7). -/
def lowNibble (b : Byte) : Nibble := b.extractLsb' 0 4

/-- A byte of two nibbles, `(high << 4) | low` (R68). -/
def byteOfNibbles (high low : Nibble) : Byte := place 8 4 high ||| place 8 0 low

/-- The address of two bytes, `(high << 8) | low` (R44, R67). -/
def addressOfBytes (high low : Byte) : BitVec 16 := place 16 8 high ||| place 16 0 low

/-- The five bytes of a frame, byte 0 first (R60). -/
def WireFrame.bytes (f : WireFrame) : List Byte := [f.b0, f.b1, f.b2, f.b3, f.b4]

/-- The 40-bit table word `F` with byte 0 most significant (R60). -/
def WireFrame.word (f : WireFrame) : BitVec 40 :=
  place 40 32 f.b0 ||| place 40 24 f.b1 ||| place 40 16 f.b2 ||| place 40 8 f.b3 ||| place 40 0 f.b4

/-- The frame of a 40-bit table word `F` (R60). -/
def frameOfWord (w : BitVec 40) : WireFrame :=
  { b0 := w.extractLsb' 32 8, b1 := w.extractLsb' 24 8, b2 := w.extractLsb' 16 8
    b3 := w.extractLsb' 8 8, b4 := w.extractLsb' 0 8 }

/-- The frame of the given fields (R60): address big-endian (R44), code and unit in byte 2, tilt and unused
nibble in byte 3, checksum last. -/
def frameOfFields (address : BitVec 16) (code unit tilt unused : Nibble) (checksum : Byte) : WireFrame :=
  { b0 := address.extractLsb' 8 8, b1 := address.extractLsb' 0 8
    b2 := byteOfNibbles code unit, b3 := byteOfNibbles tilt unused, b4 := checksum }

/-! ### The decoder -/

/-- Why an offered word names no instruction. -/
inductive DecodeError where
  /-- The command code of a bare frame is in no row of the table (R66). -/
  | unmappedCode (f : WireFrame)
  /-- `req_n` exceeds the bound of the operation's sequence operand (R75, U16). -/
  | sequenceTooLong (n : Nat)
  deriving DecidableEq, Repr

/-- The WIRE40 rows of spec/opcode_table.json, most specific first (30_encoding.md section 7). -/
def decodeWire (f : WireFrame) : Except DecodeError Instr :=
  let address := addressOfBytes f.b0 f.b1
  let code := highNibble f.b2
  let unit := lowNibble f.b2
  let tilt := highNibble f.b3
  let unused := lowNibble f.b3
  if code = 0xC ∧ tilt = 1 then .ok (.upT address unit unused f.b4)
  else if code = 0x1 ∧ tilt = 1 then .ok (.downT address unit unused f.b4)
  else if code = 0xC then .ok (.up address unit tilt unused f.b4)
  else if code = 0x1 then .ok (.down address unit tilt unused f.b4)
  else if code = 0x5 then .ok (.idle address unit tilt unused f.b4)
  else if code = 0x4 then .ok (.confirm address unit tilt unused f.b4)
  else if code = 0x2 then .ok (.setLimit address unit tilt unused f.b4)
  else .error (.unmappedCode f)

/-- An operation on the request's bit sequence, refused when `req_n` exceeds MAXBITS (R75). -/
def withBits (r : Request) (k : List Bool → Instr) : Except DecodeError Instr :=
  if r.n ≤ Config.maxBits then .ok (k (bitsOfVector r.n r.seq)) else .error (.sequenceTooLong r.n)

/-- An operation on the request's byte sequence, refused when `req_n` exceeds MAXBYTES (R75). -/
def withBytes (r : Request) (k : List Byte → Instr) : Except DecodeError Instr :=
  if r.n ≤ Config.maxBytes then .ok (k (bytesOfVector r.n r.seq)) else .error (.sequenceTooLong r.n)

/-- The REQ rows: the operation select and, for each, the operands it reads (R73).  Ports the operation does not
read are ignored (R34). -/
def decodeRequest (r : Request) : Except DecodeError Instr :=
  match r.op.toNat with
  | 0x0 => .ok .reserved
  | 0x1 => withBits r .b2by
  | 0x2 => withBytes r .by2b
  | 0x3 => withBytes r .csum
  | 0x4 => withBytes r .verify
  | 0x5 => .ok (.cmdname r.nib)
  | 0x6 => .ok (.cmdcode (nameOfCode r.nib))
  | 0x7 => withBytes r .fdec
  | 0x8 => .ok (.fenc (unpackObj r.obj))
  | 0x9 => .ok (.norm (unpackObj r.obj) (unpackCtl r.ctl))
  | 0xA => withBits r (.rx · (unpackCtl r.ctl))
  | 0xB => .ok (.tx (unpackObj r.obj) (unpackCtl r.ctl))
  | 0xC => .ok (.rot (unpackObj r.obj) (unpackCtl r.ctl))
  | 0xD => .ok (.tinv (unpackObj r.obj))
  | 0xE => .ok (.legacyAlias (unpackObj r.obj))
  | _ => .ok (.psyn (unpackObj r.obj))

/-- The decoder: total, rejecting by name. -/
def decode : Offer → Except DecodeError Instr
  | .request r => decodeRequest r
  | .wire f => decodeWire f

/-! ### The encoder -/

/-- A request carrying a bit sequence (R75). -/
def bitsRequest (op : Nibble) (bits : List Bool) : Request :=
  { op := op, n := bits.length, seq := vectorOfBits bits }

/-- A request carrying a byte sequence (R75). -/
def bytesRequest (op : Nibble) (bytes : List Byte) : Request :=
  { op := op, n := bytes.length, seq := vectorOfBytes bytes }

/-- The offered word of an instruction: fields at their places, ports the operation does not read at 0. -/
def encode : Instr → Offer
  | .upT address unit unused checksum => .wire (frameOfFields address 0xC unit 0x1 unused checksum)
  | .downT address unit unused checksum => .wire (frameOfFields address 0x1 unit 0x1 unused checksum)
  | .up address unit tilt unused checksum => .wire (frameOfFields address 0xC unit tilt unused checksum)
  | .down address unit tilt unused checksum => .wire (frameOfFields address 0x1 unit tilt unused checksum)
  | .idle address unit tilt unused checksum => .wire (frameOfFields address 0x5 unit tilt unused checksum)
  | .confirm address unit tilt unused checksum => .wire (frameOfFields address 0x4 unit tilt unused checksum)
  | .setLimit address unit tilt unused checksum => .wire (frameOfFields address 0x2 unit tilt unused checksum)
  | .reserved => .request { op := 0x0 }
  | .b2by bits => .request (bitsRequest 0x1 bits)
  | .by2b bytes => .request (bytesRequest 0x2 bytes)
  | .csum bytes => .request (bytesRequest 0x3 bytes)
  | .verify bytes => .request (bytesRequest 0x4 bytes)
  | .cmdname code => .request { op := 0x5, nib := code }
  | .cmdcode name => .request { op := 0x6, nib := codeOfName name }
  | .fdec bytes => .request (bytesRequest 0x7 bytes)
  | .fenc o => .request { op := 0x8, obj := packObj o }
  | .norm o ctl => .request { op := 0x9, obj := packObj o, ctl := packCtl ctl }
  | .rx bits ctl => .request { bitsRequest 0xA bits with ctl := packCtl ctl }
  | .tx o ctl => .request { op := 0xB, obj := packObj o, ctl := packCtl ctl }
  | .rot o ctl => .request { op := 0xC, obj := packObj o, ctl := packCtl ctl }
  | .tinv o => .request { op := 0xD, obj := packObj o }
  | .legacyAlias o => .request { op := 0xE, obj := packObj o }
  | .psyn o => .request { op := 0xF, obj := packObj o }

/-! ### Words numbered as spec/opcode_table.json numbers them -/

/-- The offered word of a table word: a word of at most 8 bits is the select of a REQ row with every operand
port 0; a longer one is the 40-bit word `F` of a WIRE40 row, byte 0 most significant (30_encoding.md section 7,
R60). -/
def tableOffer (nbits w : Nat) : Offer :=
  if nbits ≤ 8 then .request { op := BitVec.ofNat 4 w } else .wire (frameOfWord (BitVec.ofNat 40 w))

/-- Whether `w` is a word of its format: a 4-bit select, or a 40-bit frame. -/
def tableWordFits (nbits w : Nat) : Bool := if nbits ≤ 8 then w < 2 ^ 4 else w < 2 ^ 40

/-- The instruction the decoder reads from a table word, `none` where it refuses. -/
def decodeTableWord (nbits w : Nat) : Option Instr :=
  if tableWordFits nbits w then
    match decode (tableOffer nbits w) with
    | .ok i => some i
    | .error _ => none
  else none

end Sys2Proof
end

