-- ==== Sys2Proof/Machine/State.lean ====
section
/-!
DEFINITION. The machine state of `bitstream_codec` as plain data, and the state right after reset
(spec/10_state.md R20, R33, R34, R35).
-/

namespace Sys2Proof.Machine

/-- No fault exists: "No input the interface can carry makes the block hang, trap or give an undefined value"
(60_exceptions.md R190).  The named no-result outcomes are responses, not faults (R180). -/
inductive Fault where
  deriving DecidableEq, Repr

/-- Why a step gives no meaning. -/
inductive Refusal where
  /-- Raised by an arm of `exec` whose instruction has no meaning yet; safe.  No arm of this model answers so. -/
  | notModelled (mnemonic : String)
  /-- Raised by `step` when the offered request carries a `req_n` beyond MAXBITS or MAXBYTES: such a sequence
  "cannot be carried by the interface and is outside the spec" (30_encoding.md R75, U16); safe. -/
  | sequenceTooLong (n : Nat)
  deriving DecidableEq, Repr

/-- A transaction in flight (10_state.md R34): the cycles that pass before its response is offered, and the
values of the response ports.  `rsp_valid` is 1 when `wait` is 0. -/
structure Flight where
  wait : Nat
  rsp : Rsp
  deriving DecidableEq, Repr

/-- The input ports of one cycle (R33): `rst`; the word offered, `none` when `req_valid` is 0; `rsp_ready`. -/
structure Inputs where
  rst : Bool := false
  offer : Option Offer := none
  rspReady : Bool := false
  deriving DecidableEq, Repr

/-- The machine state.  `busy` and `flight` are the block's; `inputs` and `script` are what the environment
drives in this cycle and in the cycles after it; `tick` is the MODEL's own cycle counter, which the free values
of `Config` are applied to (notes/assumptions/4.md to 7.md). -/
structure State where
  busy : Bool
  flight : Option Flight
  inputs : Inputs
  script : List Inputs
  tick : Nat
  deriving DecidableEq, Repr

/-- The machine right after reset: BUSY 0 and no transaction in flight (R35, R200).  The inputs are not stored and
have no reset value: nothing is offered and nothing is scripted, and the model's counter is 0, DESIGN CHOICE
(notes/assumptions/6.md, 7.md). -/
def State.reset : State :=
  { busy := false, flight := none, inputs := {}, script := [], tick := 0 }

end Sys2Proof.Machine
end

