-- ==== Sys2Proof/Machine/Flags.lean ====
section
/-!
DEFINITION. The success bit and the reason code of a response (spec/10_state.md R23, 30_encoding.md R74,
60_exceptions.md R180).
-/

namespace Sys2Proof.Machine

/-- The 3-bit reason code of a no-result outcome (R74). -/
def reasonCode : Reason → BitVec 3
  | .malformedPayload => 1
  | .unknownCommandCode => 2
  | .unresolvableEncodeRequest => 3
  | .noMatch => 4
  | .badOp => 5

/-- A successful response before any result field is filled: `ok = 1`, reason 0, every other field driven to 0
(R23, R34, R74). -/
def rspOk : Rsp :=
  { ok := true, reason := 0, n := 0, seq := 0, rn := 0, res := 0, obj := 0, nib := 0, byte := 0, bool := false }

/-- A no-result response: `ok = 0`, the reason, and all result fields 0 (R180). -/
def rspNoResult (r : Reason) : Rsp := { rspOk with ok := false, reason := reasonCode r }

end Sys2Proof.Machine
end

