-- ==== Sys2Proof/Machine/Operands.lean ====
section
/-!
DEFINITION. The result forms of a response: each fills the ports its operation writes and leaves the others at 0
(spec/30_encoding.md R73, R75; 10_state.md R34).  The operand forms are read by Decode.lean.
-/

namespace Sys2Proof.Machine

/-- A bit sequence result on `rsp_n`, `rsp_seq` (R75). -/
def rspBits (bits : List Bool) : Rsp := { rspOk with n := bits.length, seq := vectorOfBits bits }

/-- A byte sequence result on `rsp_n`, `rsp_seq` (R75). -/
def rspBytes (bytes : List Byte) : Rsp := { rspOk with n := bytes.length, seq := vectorOfBytes bytes }

/-- A byte sequence with a residue: bit `i` of `rsp_res` is residue element `i`, `rsp_rn` is its length (R33). -/
def rspBytesResidue (r : List Byte × List Bool) : Rsp :=
  { rspBytes r.1 with rn := BitVec.ofNat 3 r.2.length, res := BitVec.ofNat 7 (vectorOfBits r.2) }

/-- A data object result on `rsp_obj`, canonical (R71). -/
def rspObject (o : DataObject) : Rsp := { rspOk with obj := packObj o }

/-- A nibble result on `rsp_nib`: a command code. -/
def rspNibble (c : Nibble) : Rsp := { rspOk with nib := c }

/-- A command name result on `rsp_nib`, as a NameCode (R70). -/
def rspName (m : CmdName) : Rsp := rspNibble (codeOfName (some m))

/-- A checksum result on `rsp_byte`. -/
def rspByte (b : Byte) : Rsp := { rspOk with byte := b }

/-- A verdict on `rsp_bool`. -/
def rspBool (b : Bool) : Rsp := { rspOk with bool := b }

end Sys2Proof.Machine
end

