-- ==== Sys2Proof/Machine/Ops.lean ====
section
/-!
DEFINITION. The shared operations of the machine: answering a request, with a result or with a no-result outcome;
the response channel; reset; the passing of a cycle; and what a step finds to do
(spec/10_state.md R33, R34, R35; 60_exceptions.md R180).
-/

namespace Sys2Proof.Machine

/-! ### Output ports -/

/-- `req_ready`, equal to `not BUSY` (R33). -/
def State.reqReady (s : State) : Bool := !s.busy

/-- The response offered in this cycle, if `rsp_valid` is 1 (R34). -/
def State.offered (s : State) : Option Rsp :=
  match s.flight with
  | none => none
  | some f => if f.wait = 0 then some f.rsp else none

/-- `rsp_valid` (R33, R34). -/
def State.rspValid (s : State) : Bool := s.offered.isSome

/-- The `rsp_*` ports: the offered response, or a free value in a cycle with `rsp_valid = 0` (R35, U13). -/
def State.rspPorts (s : State) : Rsp := s.offered.getD (Config.undriven s.tick)

/-! ### Answering a request -/

/-- The request of this cycle is taken and its response is on its way: BUSY becomes 1, and the response is offered
after LAT further cycles (R33, R34). -/
def State.answer (s : State) (r : Rsp) : State :=
  { s with busy := true, flight := some { wait := Config.lat s.tick, rsp := r } }

/-- A no-result outcome, the block's counterpart of taking an exception: the response has `ok = 0`, the reason and
nothing else; no mode, mask or saved value exists to change, and control goes nowhere (R180).  There is no return
operation (R189). -/
def State.raise (s : State) (r : Reason) : State := s.answer (rspNoResult r)

/-- An operation ends in exactly one of two ways, with its result or with a named outcome (R180). -/
def State.reply {α : Type} (s : State) (form : α → Rsp) : Except Reason α → State
  | .ok v => s.answer (form v)
  | .error r => s.raise r

/-! ### The response channel, reset, the passing of a cycle -/

/-- A cycle of a busy block: the latency runs down; an offered response is held until `rsp_ready` is 1, and is
taken in that cycle, which makes BUSY 0 (R33, R34). -/
def State.serve (s : State) : State :=
  match s.flight with
  | none => s
  | some f =>
    match f.wait with
    | w + 1 => { s with flight := some { f with wait := w } }
    | 0 => if s.inputs.rspReady then { s with busy := false, flight := none } else s

/-- Synchronous reset: BUSY becomes 0 and a transaction in flight is abandoned without a response (R35, R200). -/
def State.applyReset (s : State) : State := { s with busy := false, flight := none }

/-- The clock advances: the environment drives its next inputs, and nothing when its script has ended. -/
def State.nextCycle (s : State) : State :=
  { s with inputs := s.script.headD {}, script := s.script.tail, tick := s.tick + 1 }

/-! ### Fetch -/

/-- What one cycle does. -/
inductive Phase where
  /-- `rst` is 1. -/
  | resetting
  /-- BUSY is 1: no request is taken. -/
  | serving
  /-- BUSY is 0 and `req_valid` is 0. -/
  | quiet
  /-- A request is taken and it names an instruction. -/
  | run (i : Instr)
  /-- A bare frame is taken whose code is in no row (R66). -/
  | unmapped (f : WireFrame)
  /-- The offered sequence is beyond the interface's bounds (R75, U16). -/
  | overlong (n : Nat)
  deriving DecidableEq, Repr

/-- What this cycle does: `rst` first, then the handshake of R34 (a request is taken in a cycle where
`req_valid = 1` and `req_ready = 1`), then the decoding of the taken word. -/
def fetch (s : State) : Phase :=
  if s.inputs.rst then .resetting
  else if s.busy then .serving
  else
    match s.inputs.offer with
    | none => .quiet
    | some w =>
      match decode w with
      | .ok i => .run i
      | .error (.unmappedCode f) => .unmapped f
      | .error (.sequenceTooLong n) => .overlong n

end Sys2Proof.Machine
end

