-- ==== Sys2Proof/Machine/BitCodec.lean ====
section
/-!
DEFINITION. The BitStream Codec: B2BY and BY2B (spec/40_bitstream_codec.md).
-/

namespace Sys2Proof.Machine

/-- The byte of eight wire bits in arrival order, least significant bit first (20_memory.md R42). -/
def byteOfBits (c0 c1 c2 c3 c4 c5 c6 c7 : Bool) : Byte :=
  BitVec.ofNat 8
    (c0.toNat * 1 + c1.toNat * 2 + c2.toNat * 4 + c3.toNat * 8
      + c4.toNat * 16 + c5.toNat * 32 + c6.toNat * 64 + c7.toNat * 128)

/-- The complete bytes of a bit sequence and, apart, its short trailing group (R100). -/
def bitsToBytes : List Bool → List Byte × List Bool
  | c0 :: c1 :: c2 :: c3 :: c4 :: c5 :: c6 :: c7 :: rest =>
    let r := bitsToBytes rest
    (byteOfBits c0 c1 c2 c3 c4 c5 c6 c7 :: r.1, r.2)
  | short => ([], short)

/-- The wire bits of a byte, bit 0 first (R101). -/
def bitsOfByte (b : Byte) : List Bool :=
  [b.getLsbD 0, b.getLsbD 1, b.getLsbD 2, b.getLsbD 3, b.getLsbD 4, b.getLsbD 5, b.getLsbD 6, b.getLsbD 7]

/-- The wire bits of a byte sequence, byte 0 first (R101). -/
def bytesToBits : List Byte → List Bool
  | [] => []
  | b :: bs => bitsOfByte b ++ bytesToBits bs

/-- B2BY (R100): total, `ok = 1` always. -/
def execB2by (bits : List Bool) (s : State) : Host.Outcome State Fault Refusal :=
  .next (s.answer (rspBytesResidue (bitsToBytes bits)))

/-- BY2B (R101): total, `ok = 1` always. -/
def execBy2b (bytes : List Byte) (s : State) : Host.Outcome State Fault Refusal :=
  .next (s.answer (rspBits (bytesToBits bytes)))

end Sys2Proof.Machine
end

