-- ==== Sys2Proof/Machine/Checksum.lean ====
section
/-!
DEFINITION. The Checksum Engine: CSUM and VERIFY (spec/41_checksum_engine.md).
-/

namespace Sys2Proof.Machine

/-- One step of the running subtraction on ACCW = 9 bits, masked to 8: `(0x100 | acc) - b` (R110). -/
def csumStep (acc b : Byte) : Byte := ((0x100#9 ||| acc.setWidth 9) - b.setWidth 9).setWidth 8

/-- The checksum of a byte sequence, seeded with 0x01 (R110). -/
def csum (bytes : List Byte) : Byte := bytes.foldl csumStep 0x01

/-- The verdict of VERIFY: false below 2 bytes, else whether the checksum of all bytes but the last equals the last
(R111). -/
def verifies (bytes : List Byte) : Bool :=
  if bytes.length < 2 then false else csum bytes.dropLast == bytes.getLastD 0

/-- CSUM (R110): total, `ok = 1` always. -/
def execCsum (bytes : List Byte) (s : State) : Host.Outcome State Fault Refusal :=
  .next (s.answer (rspByte (csum bytes)))

/-- VERIFY (R111): `ok = 1` always; the verdict is the result. -/
def execVerify (bytes : List Byte) (s : State) : Host.Outcome State Fault Refusal :=
  .next (s.answer (rspBool (verifies bytes)))

end Sys2Proof.Machine
end

