-- ==== Sys2Proof/Machine/CommandMap.lean ====
section
/-!
DEFINITION. The Command Map: the constant table, CMDNAME and CMDCODE (spec/10_state.md R27,
42_command_mapper.md).
-/

namespace Sys2Proof.Machine

/-- CMDTAB, the constant command table: code and name (R27). -/
def cmdTable : List (Nibble × CmdName) :=
  [(0xC, .up), (0x1, .down), (0x5, .idle), (0x4, .confirm), (0x2, .setLimit)]

/-- Lookup by code; NoMatch for a code not in the table (R120). -/
def nameForCode (code : Nibble) : Except Reason CmdName :=
  match cmdTable.find? (fun row => row.1 == code) with
  | some row => .ok row.2
  | none => .error .noMatch

/-- Lookup by name; NoMatch for a name not in the table, and for no name (R121). -/
def codeForName (name : Option CmdName) : Except Reason Nibble :=
  match cmdTable.find? (fun row => some row.2 == name) with
  | some row => .ok row.1
  | none => .error .noMatch

/-- CMDNAME (R120). -/
def execCmdname (code : Nibble) (s : State) : Host.Outcome State Fault Refusal :=
  .next (s.reply rspName (nameForCode code))

/-- CMDCODE (R121). -/
def execCmdcode (name : Option CmdName) (s : State) : Host.Outcome State Fault Refusal :=
  .next (s.reply rspNibble (codeForName name))

end Sys2Proof.Machine
end

