-- ==== Sys2Proof/Machine/FrameCodec.lean ====
section
/-!
DEFINITION. The Frame Codec: FDEC and FENC (spec/43_frame_codec.md).
-/

namespace Sys2Proof.Machine

/-- The identifier `(address << 4) | unit`, 20 bits (R30, R67). -/
def idOf (address : BitVec 16) (unit : Nibble) : BitVec 20 := place 20 4 address ||| place 20 0 unit

/-- The fields every decoded object has: address, unit, group, cmd and id (R67, R130 step 7). -/
def frameObject (address : BitVec 16) (unit : Nibble) (name : CmdName) : DataObject :=
  { address := some address, unit := some unit, group := some (unit == 0), cmd := some name
    id := some (idOf address unit) }

/-- The fields that the command and byte 3 add to the object (R130 steps 8 to 16). -/
def addMotion (name : CmdName) (b3 : Byte) (o : DataObject) : DataObject :=
  match name with
  | .up =>
    if highNibble b3 = 0x1 then { o with tiltUp := true, tilt := some .up }
    else { o with state := some .up, direction := some .up }
  | .down =>
    if highNibble b3 = 0x1 then { o with tiltDown := true, tilt := some .down }
    else { o with state := some .down, direction := some .down }
  | .idle => { o with state := some .idle }
  | _ => o

/-- The object of a verified sequence, from its first four bytes (R130 steps 3 to 17). -/
def objectOfBytes (b0 b1 b2 b3 : Byte) : Except Reason DataObject :=
  let address := addressOfBytes b0 b1
  match nameForCode (highNibble b2) with
  | .ok name => .ok (addMotion name b3 (frameObject address (lowNibble b2) name))
  | .error _ => .error .unknownCommandCode

/-- FDEC as a function (R130): length, then checksum, then command code (R187). -/
def frameFromBytes (bytes : List Byte) : Except Reason DataObject :=
  match bytes with
  | b0 :: b1 :: b2 :: b3 :: _ :: _ =>
    if verifies bytes then objectOfBytes b0 b1 b2 b3 else .error .malformedPayload
  | _ => .error .malformedPayload

/-- Whether an object is a tilt request (R131 line 2). -/
def isTilt (o : DataObject) : Bool := o.tiltUp || o.tiltDown

/-- The command name an encode selects: a tilt flag first, `tilt_up` before `tilt_down`; else `cmd`; else `state`
(R131 lines 3 to 7). -/
def selectName (o : DataObject) : Option CmdName :=
  if o.tiltUp then some .up
  else if o.tiltDown then some .down
  else if o.cmd.isSome then o.cmd
  else o.state

/-- The four payload bytes (R131 line 10, R68). -/
def payloadBytes (address : BitVec 16) (code unit : Nibble) (tilt : Bool) : List Byte :=
  [ (address >>> 8 &&& 0xFF).setWidth 8, (address &&& 0xFF).setWidth 8,
    byteOfNibbles code unit &&& 0xFF, if tilt then 0x10 else 0x00 ]

/-- FENC as a function (R131). -/
def bytesFromFrame (o : DataObject) : Except Reason (List Byte) :=
  match o.address with
  | none => .error .unresolvableEncodeRequest
  | some address =>
    match codeForName (selectName o) with
    | .error _ => .error .unresolvableEncodeRequest
    | .ok code =>
      let payload := payloadBytes address code (o.unit.getD 0) (isTilt o)
      .ok (payload ++ [csum payload])

/-- FDEC (R130). -/
def execFdec (bytes : List Byte) (s : State) : Host.Outcome State Fault Refusal :=
  .next (s.reply rspObject (frameFromBytes bytes))

/-- FENC (R131). -/
def execFenc (o : DataObject) (s : State) : Host.Outcome State Fault Refusal :=
  .next (s.reply rspBytes (bytesFromFrame o))

end Sys2Proof.Machine
end

