-- ==== Sys2Proof/Machine/Normalizer.lean ====
section
/-!
DEFINITION. The Settings Normalizer: PSYN, ROT, TINV, ALIAS and NORM (spec/44_settings_normalizer.md).
-/

namespace Sys2Proof.Machine

/-- `swapUD` on an optional command name: `up` and `down` exchanged, anything else as it is. -/
def swapUD : Option CmdName → Option CmdName
  | some .up => some .down
  | some .down => some .up
  | v => v

/-- `swapDeep` on an optional command name: `deep_up` and `deep_down` exchanged, anything else as it is. -/
def swapDeep : Option CmdName → Option CmdName
  | some .deepUp => some .deepDown
  | some .deepDown => some .deepUp
  | v => v

/-- Pairing-mode synthesis (R150). -/
def synthesize (o : DataObject) : DataObject :=
  let o1 : DataObject := if o.state.isSome && o.state != some .idle then { o with direction := o.state } else o
  if o1.tiltUp then { o1 with tilt := some .up }
  else if o1.tiltDown then { o1 with tilt := some .down }
  else o1

/-- Rotation by 180 degrees (R151): each name field by its own value; the deep-travel aliases in `cmd`, outbound
only; the two tilt flags exchanged. -/
def rotate (o : DataObject) (dir : Direction) : DataObject :=
  let c := swapUD o.cmd
  { o with
    cmd := if dir = .outbound then swapDeep c else c
    state := swapUD o.state
    direction := swapUD o.direction
    tilt := swapUD o.tilt
    tiltUp := o.tiltDown
    tiltDown := o.tiltUp }

/-- Tilt inversion (R152). -/
def invertTilt (o : DataObject) : DataObject :=
  { o with tilt := swapUD o.tilt, tiltUp := o.tiltDown, tiltDown := o.tiltUp }

/-- The legacy `my` resolved: `state` becomes idle and `cmd` is dropped (R153). -/
def resolveMy (o : DataObject) : DataObject :=
  if o.cmd = some .my then { o with state := some .idle, cmd := none } else o

/-- The normalization function, its four steps in order (R154). -/
def normalizeObject (o : DataObject) (ctl : Ctl) : DataObject :=
  let o1 := if ctl.dir = .inbound ∧ ctl.pairing = true then synthesize o else o
  let o2 := if ctl.rot180 = true then rotate o1 ctl.dir else o1
  let o3 := if ctl.invertTilt = true then invertTilt o2 else o2
  if ctl.dir = .outbound then resolveMy o3 else o3

/-- PSYN (R150): total, unconditional. -/
def execPsyn (o : DataObject) (s : State) : Host.Outcome State Fault Refusal :=
  .next (s.answer (rspObject (synthesize o)))

/-- ROT (R151): total, unconditional.  Of the sampled `Ctl` it uses `dir`; the other bits, `rot180` among them, are
ignored (R151, R73; R24 lists ROT beside `rot180`, notes/assumptions/12.md). -/
def execRot (o : DataObject) (ctl : Ctl) (s : State) : Host.Outcome State Fault Refusal :=
  .next (s.answer (rspObject (rotate o ctl.dir)))

/-- TINV (R152): total, unconditional. -/
def execTinv (o : DataObject) (s : State) : Host.Outcome State Fault Refusal :=
  .next (s.answer (rspObject (invertTilt o)))

/-- ALIAS (R153): total; it rewrites whenever `cmd` is `my`. -/
def execLegacyAlias (o : DataObject) (s : State) : Host.Outcome State Fault Refusal :=
  .next (s.answer (rspObject (resolveMy o)))

/-- NORM (R154): total. -/
def execNorm (o : DataObject) (ctl : Ctl) (s : State) : Host.Outcome State Fault Refusal :=
  .next (s.answer (rspObject (normalizeObject o ctl)))

end Sys2Proof.Machine
end

