-- ==== Sys2Proof/Machine/Pipelines.lean ====
section
/-!
DEFINITION. The inbound and outbound pipelines RX and TX (spec/45_pipelines.md), and the reserved select
(60_exceptions.md R185).
-/

namespace Sys2Proof.Machine

/-- RX as a function (R170): B2BY, the residue test, FDEC, NORM inbound.  `ctl.dir` is ignored. -/
def receive (bits : List Bool) (ctl : Ctl) : Except Reason DataObject :=
  let r := bitsToBytes bits
  if r.2.length ≠ 0 then .error .malformedPayload
  else
    match frameFromBytes r.1 with
    | .error e => .error e
    | .ok d => .ok (normalizeObject d { ctl with dir := .inbound })

/-- TX as a function (R171): NORM outbound, FENC, BY2B.  `ctl.dir` is ignored. -/
def transmit (o : DataObject) (ctl : Ctl) : Except Reason (List Bool) :=
  match bytesFromFrame (normalizeObject o { ctl with dir := .outbound }) with
  | .error e => .error e
  | .ok bytes => .ok (bytesToBits bytes)

/-- RX (R170). -/
def execRx (bits : List Bool) (ctl : Ctl) (s : State) : Host.Outcome State Fault Refusal :=
  .next (s.reply rspObject (receive bits ctl))

/-- TX (R171). -/
def execTx (o : DataObject) (ctl : Ctl) (s : State) : Host.Outcome State Fault Refusal :=
  .next (s.reply rspBits (transmit o ctl))

/-- The reserved select 0x0: no result, reason BadOp, no other effect (R185). -/
def execReserved (s : State) : Host.Outcome State Fault Refusal :=
  .next (s.raise .badOp)

end Sys2Proof.Machine
end

