-- ==== Sys2Proof/Machine/WireFrames.lean ====
section
/-!
DEFINITION. The seven frame forms of format WIRE40 (spec/30_encoding.md R60 to R64, section 7): the decode FDEC
gives for each form (43_frame_codec.md R130).  The object follows when the frame's checksum is right; otherwise
the outcome is MalformedPayload (R181).
-/

namespace Sys2Proof.Machine

/-- The object of a frame whose checksum is right, MalformedPayload otherwise (R130 step 2). -/
def whenVerified (f : WireFrame) (o : DataObject) : Except Reason DataObject :=
  if verifies f.bytes then .ok o else .error .malformedPayload

/-- UP.T: a tilt pulse up; `tilt_up` and `tilt`, no `state` (R130 lines 9, 10). -/
def execUpT (address : BitVec 16) (unit unused : Nibble) (checksum : Byte) (s : State) :
    Host.Outcome State Fault Refusal :=
  .next (s.reply rspObject (whenVerified (frameOfFields address 0xC unit 0x1 unused checksum)
    { frameObject address unit .up with tiltUp := true, tilt := some .up }))

/-- DOWN.T: a tilt pulse down; `tilt_down` and `tilt`, no `state` (R130 lines 9, 11). -/
def execDownT (address : BitVec 16) (unit unused : Nibble) (checksum : Byte) (s : State) :
    Host.Outcome State Fault Refusal :=
  .next (s.reply rspObject (whenVerified (frameOfFields address 0x1 unit 0x1 unused checksum)
    { frameObject address unit .down with tiltDown := true, tilt := some .down }))

/-- UP: full travel up; `state` and `direction` (R130 line 13). -/
def execUp (address : BitVec 16) (unit tilt unused : Nibble) (checksum : Byte) (s : State) :
    Host.Outcome State Fault Refusal :=
  .next (s.reply rspObject (whenVerified (frameOfFields address 0xC unit tilt unused checksum)
    { frameObject address unit .up with state := some .up, direction := some .up }))

/-- DOWN: full travel down; `state` and `direction` (R130 line 13). -/
def execDown (address : BitVec 16) (unit tilt unused : Nibble) (checksum : Byte) (s : State) :
    Host.Outcome State Fault Refusal :=
  .next (s.reply rspObject (whenVerified (frameOfFields address 0x1 unit tilt unused checksum)
    { frameObject address unit .down with state := some .down, direction := some .down }))

/-- IDLE: `state` idle, no `direction`; byte 3 is not looked at (R130 line 15, R63). -/
def execIdle (address : BitVec 16) (unit tilt unused : Nibble) (checksum : Byte) (s : State) :
    Host.Outcome State Fault Refusal :=
  .next (s.reply rspObject (whenVerified (frameOfFields address 0x5 unit tilt unused checksum)
    { frameObject address unit .idle with state := some .idle }))

/-- CONFIRM: the bare command name; byte 3 is not looked at (R130 line 16, R62). -/
def execConfirm (address : BitVec 16) (unit tilt unused : Nibble) (checksum : Byte) (s : State) :
    Host.Outcome State Fault Refusal :=
  .next (s.reply rspObject (whenVerified (frameOfFields address 0x4 unit tilt unused checksum)
    (frameObject address unit .confirm)))

/-- SET_LIMIT: the bare command name; byte 3 is not looked at (R130 line 16, R62). -/
def execSetLimit (address : BitVec 16) (unit tilt unused : Nibble) (checksum : Byte) (s : State) :
    Host.Outcome State Fault Refusal :=
  .next (s.reply rspObject (whenVerified (frameOfFields address 0x2 unit tilt unused checksum)
    (frameObject address unit .setLimit)))

/-- A bare frame whose command code is in no row: what FDEC answers for its five bytes, which is
UnknownCommandCode, or MalformedPayload when the checksum is wrong (R66, R182, R187). -/
def rejectFrame (f : WireFrame) (s : State) : State := s.reply rspObject (frameFromBytes f.bytes)

end Sys2Proof.Machine
end

