-- ==== Sys2Proof/Machine/Dispatch.lean ====
section
/-!
DEFINITION. One arm per constructor of `Instr`, each one direct call of its meaning.
-/

namespace Sys2Proof.Machine

def exec (i : Instr) (s : State) : Host.Outcome State Fault Refusal :=
  match i with
  | .upT address unit unused checksum => Sys2Proof.Machine.execUpT address unit unused checksum s
  | .downT address unit unused checksum => Sys2Proof.Machine.execDownT address unit unused checksum s
  | .up address unit tilt unused checksum => Sys2Proof.Machine.execUp address unit tilt unused checksum s
  | .down address unit tilt unused checksum => Sys2Proof.Machine.execDown address unit tilt unused checksum s
  | .idle address unit tilt unused checksum => Sys2Proof.Machine.execIdle address unit tilt unused checksum s
  | .confirm address unit tilt unused checksum => Sys2Proof.Machine.execConfirm address unit tilt unused checksum s
  | .setLimit address unit tilt unused checksum => Sys2Proof.Machine.execSetLimit address unit tilt unused checksum s
  | .reserved => Sys2Proof.Machine.execReserved s
  | .b2by bits => Sys2Proof.Machine.execB2by bits s
  | .by2b bytes => Sys2Proof.Machine.execBy2b bytes s
  | .csum bytes => Sys2Proof.Machine.execCsum bytes s
  | .verify bytes => Sys2Proof.Machine.execVerify bytes s
  | .cmdname code => Sys2Proof.Machine.execCmdname code s
  | .cmdcode name => Sys2Proof.Machine.execCmdcode name s
  | .fdec bytes => Sys2Proof.Machine.execFdec bytes s
  | .fenc o => Sys2Proof.Machine.execFenc o s
  | .norm o ctl => Sys2Proof.Machine.execNorm o ctl s
  | .rx bits ctl => Sys2Proof.Machine.execRx bits ctl s
  | .tx o ctl => Sys2Proof.Machine.execTx o ctl s
  | .rot o ctl => Sys2Proof.Machine.execRot o ctl s
  | .tinv o => Sys2Proof.Machine.execTinv o s
  | .legacyAlias o => Sys2Proof.Machine.execLegacyAlias o s
  | .psyn o => Sys2Proof.Machine.execPsyn o s

end Sys2Proof.Machine
end

