-- ==== Sys2Proof/Machine/Step.lean ====
section
/-!
DEFINITION. One step is one clock cycle of the block and its environment (spec/10_state.md R33, R34), and the
state in which a given word is the next one fetched.
-/

namespace Sys2Proof.Machine

/-- One clock cycle.  A cycle that takes a request runs its instruction; then the clock advances. -/
def step (s : State) : Host.Outcome State Fault Refusal :=
  match fetch s with
  | .resetting => .next s.applyReset.nextCycle
  | .serving => .next s.serve.nextCycle
  | .quiet => .next s.nextCycle
  | .unmapped f => .next (rejectFrame f s).nextCycle
  | .overlong n => .refused (.sequenceTooLong n)
  | .run i =>
    match exec i s with
    | .next t => .next t.nextCycle
    | .fault e => .fault e
    | .refused e => .refused e

/-- `s` with the word `w` offered in the current cycle to a block that can take it: no reset, BUSY 0, nothing in
flight (notes/assumptions/8.md). -/
def State.withFetchWord (s : State) (nbits w : Nat) : State :=
  { s with
    busy := false
    flight := none
    inputs := { s.inputs with rst := false, offer := some (tableOffer nbits w) } }

end Sys2Proof.Machine
end

