-- ==== Sys2Proof/Safety.lean ====
section
/-!
DEFINITION. The terms claims use: response values written out port by port, what a legal response is, and the
invariant of the handshake (spec/10_state.md R33, R34; 30_encoding.md R71, R74, R75; 60_exceptions.md R180).
-/

namespace Sys2Proof.Machine

/-- Every response port at 0 (10_state.md R34, "driven to zero"). -/
def zeroRsp : Rsp :=
  { ok := false, reason := 0, n := 0, seq := 0, rn := 0, res := 0, obj := 0, nib := 0, byte := 0, bool := false }

/-- A response with `ok = 0`, the given reason code, and every other port 0 (R180). -/
def noResult (code : BitVec 3) : Rsp := { zeroRsp with reason := code }

/-- A response with `ok = 1`, a data object, and every other port 0. -/
def objectResult (o : DataObject) : Rsp := { zeroRsp with ok := true, obj := packObj o }

/-- What every response the block offers keeps:
`ok = 1` exactly with reason 0 (R74), and a no-result response is one of the five of R181 to R185 and delivers
nothing else (R180);
its object word is canonical (R71);
its sequence is `k` complete bytes with `k` at most MAXBYTES (R13), whose length is `k` as a byte sequence or `8 * k`
as a bit sequence, and the vector bits from `8 * k` on, above that length, are 0 (R75);
the residue bits above the residue's length are 0. -/
def legalRsp (r : Rsp) : Prop :=
  (r.ok = true ↔ r.reason = 0) ∧
  (r.ok = false → r ∈ [noResult 1, noResult 2, noResult 3, noResult 4, noResult 5]) ∧
  packObj (unpackObj r.obj) = r.obj ∧
  (∃ k, k ≤ Config.maxBytes ∧ r.seq < 2 ^ (8 * k) ∧ (r.n = k ∨ r.n = 8 * k)) ∧
  r.res.toNat < 2 ^ r.rn.toNat

/-- The invariant of the handshake: BUSY is 1 exactly while a transaction is in flight (R33), and the response of
that transaction is legal. -/
def State.Inv (s : State) : Prop :=
  s.busy = s.flight.isSome ∧ ∀ f, s.flight = some f → legalRsp f.rsp

/-- The block can take the word `w` in this cycle: no reset, BUSY 0, `w` offered (R34). -/
def State.takes (s : State) (w : Offer) : Prop :=
  s.inputs.rst = false ∧ s.busy = false ∧ s.inputs.offer = some w

end Sys2Proof.Machine
end

