-- ==== Sys2Proof/Certificates/Slice0/Obligations.lean ====
section
/-!
DEFINITION. The statements for the provers.  Each docstring names the rule of spec/ it formalises.
-/

open Sys2Proof Sys2Proof.Machine

/-! ### Encodings -/

/-- 30_encoding.md R60, R70 to R73, R75: no bit of an encoding is dropped. -/
def Obligations.EncodedInstructionDecodesBack : Prop :=
  ∀ i : Instr, i.wellFormed = true → decode (encode i) = .ok i

/-- 30_encoding.md R60 and section 7: each bare frame has one reading, and it encodes back to the same five bytes.
That a frame is read whatever its checksum is the model's choice, notes/assumptions/2.md. -/
def Obligations.DecodedFrameEncodesBack : Prop :=
  ∀ (f : WireFrame) (i : Instr), decode (.wire f) = .ok i → i.wellFormed = true ∧ encode i = .wire f

/-- 30_encoding.md section 7 over the word F of R60: the rows of the opcode table by mask and match, most specific
first; a frame that matches no row is rejected by name (R66).  Section 7 calls a row the decoding only when the length
and checksum tests of R130 passed.  That the decoder reads a frame whatever its checksum, and leaves a wrong checksum
to the instruction's outcome, is the model's choice, notes/assumptions/2.md. -/
def Obligations.FrameDecodingFollowsTheTableRows : Prop :=
  ∀ f : WireFrame,
    let w := f.word
    let a := w.extractLsb' 24 16
    let u := w.extractLsb' 16 4
    let t := w.extractLsb' 12 4
    let x := w.extractLsb' 8 4
    let k := w.extractLsb' 0 8
    decode (.wire f) =
      if w &&& 0x0000F0F000 = 0x0000C01000 then .ok (.upT a u x k)
      else if w &&& 0x0000F0F000 = 0x0000101000 then .ok (.downT a u x k)
      else if w &&& 0x0000F00000 = 0x0000C00000 then .ok (.up a u t x k)
      else if w &&& 0x0000F00000 = 0x0000100000 then .ok (.down a u t x k)
      else if w &&& 0x0000F00000 = 0x0000500000 then .ok (.idle a u t x k)
      else if w &&& 0x0000F00000 = 0x0000400000 then .ok (.confirm a u t x k)
      else if w &&& 0x0000F00000 = 0x0000200000 then .ok (.setLimit a u t x k)
      else .error (.unmappedCode f)

/-- 30_encoding.md R61: which field bit each of the 40 wire bits of a frame carries. -/
def Obligations.FrameFieldsStandInWireOrder : Prop :=
  ∀ (a : BitVec 16) (c u t x : Nibble) (k : Byte),
    let bits := bytesToBits (frameOfFields a c u t x k).bytes
    bits.length = 40 ∧
    (∀ i, i < 8 → bits.getD i false = a.getLsbD (8 + i)) ∧
    (∀ i, i < 8 → bits.getD (8 + i) false = a.getLsbD i) ∧
    (∀ i, i < 4 → bits.getD (16 + i) false = u.getLsbD i) ∧
    (∀ i, i < 4 → bits.getD (20 + i) false = c.getLsbD i) ∧
    (∀ i, i < 4 → bits.getD (24 + i) false = x.getLsbD i) ∧
    (∀ i, i < 4 → bits.getD (28 + i) false = t.getLsbD i) ∧
    (∀ i, i < 8 → bits.getD (32 + i) false = k.getLsbD i)

/-- Words written out from the encodings of R60 (frames) and R73 (selects).  R60 and R73 fix which row each word is.
That a table word of at most 8 bits is a select with every operand port 0, and so the operands `[]`, `none` and `{}` of
the selects 0x1, 0x6 and 0xE, is the model's reading of the table, notes/assumptions/8.md; that the frame words decode
without the checksum test is its choice of notes/assumptions/2.md. -/
def Obligations.WrittenOutWordsDecode : Prop :=
  decodeTableWord 40 0x0005C0003C = some (.up 5 0 0 0 0x3C) ∧
  decodeTableWord 40 0xABCD151F55 = some (.downT 0xABCD 5 0xF 0x55) ∧
  decodeTableWord 40 0xFFFF5F00A4 = some (.idle 0xFFFF 15 0 0 0xA4) ∧
  decodeTableWord 40 0xABCD350054 = none ∧
  decodeTableWord 8 0x0 = some .reserved ∧
  decodeTableWord 8 0x1 = some (.b2by []) ∧
  decodeTableWord 8 0x6 = some (.cmdcode none) ∧
  decodeTableWord 8 0xE = some (.legacyAlias {})

/-- 30_encoding.md R73: each select names its operation, whose operands are read from the ports the table lists
and from no other port. -/
def Obligations.RequestSelectsItsOperation : Prop :=
  ∀ (ctl : BitVec 4) (n seq : Nat) (obj : BitVec 64) (nib : Nibble),
    let req (op : Nibble) : Offer := .request { op := op, ctl := ctl, n := n, seq := seq, obj := obj, nib := nib }
    let o := unpackObj obj
    let c := unpackCtl ctl
    decode (req 0x0) = .ok .reserved ∧
    decode (req 0x5) = .ok (.cmdname nib) ∧
    decode (req 0x6) = .ok (.cmdcode (nameOfCode nib)) ∧
    decode (req 0x8) = .ok (.fenc o) ∧
    decode (req 0x9) = .ok (.norm o c) ∧
    decode (req 0xB) = .ok (.tx o c) ∧
    decode (req 0xC) = .ok (.rot o c) ∧
    decode (req 0xD) = .ok (.tinv o) ∧
    decode (req 0xE) = .ok (.legacyAlias o) ∧
    decode (req 0xF) = .ok (.psyn o) ∧
    (n ≤ Config.maxBits →
      decode (req 0x1) = .ok (.b2by (bitsOfVector n seq)) ∧
      decode (req 0xA) = .ok (.rx (bitsOfVector n seq) c)) ∧
    (n ≤ Config.maxBytes →
      decode (req 0x2) = .ok (.by2b (bytesOfVector n seq)) ∧
      decode (req 0x3) = .ok (.csum (bytesOfVector n seq)) ∧
      decode (req 0x4) = .ok (.verify (bytesOfVector n seq)) ∧
      decode (req 0x7) = .ok (.fdec (bytesOfVector n seq)))

/-- 30_encoding.md R75: where the elements of a sequence stand on its vector, in both directions; vector bits above
the length are ignored in a request and 0 in a response; the vector of a byte sequence is the vector of the bits
BY2B makes of it.  Of a length beyond the bounds R75 says only that it is outside the spec.  The last clause, that the
decoder rejects it by name, is the model's choice, notes/assumptions/3.md, after U16 "refuse". -/
def Obligations.SequenceVectorsCarryElementsByIndex : Prop :=
  (∀ n v, (bitsOfVector n v).length = n ∧ ∀ i, i < n → (bitsOfVector n v)[i]? = some (v.testBit i)) ∧
  (∀ n v, (bytesOfVector n v).length = n ∧
    ∀ k, k < n → ∃ b, (bytesOfVector n v)[k]? = some b ∧ ∀ j, j < 8 → b.getLsbD j = v.testBit (8 * k + j)) ∧
  (∀ bits i, (vectorOfBits bits).testBit i = bits.getD i false) ∧
  (∀ bytes k j, j < 8 → (vectorOfBytes bytes).testBit (8 * k + j) = (bytes.getD k 0).getLsbD j) ∧
  (∀ bytes, vectorOfBits (bytesToBits bytes) = vectorOfBytes bytes) ∧
  (∀ r : Request,
    (r.op = 0x1 ∨ r.op = 0xA) ∧ Config.maxBits < r.n ∨
      (r.op = 0x2 ∨ r.op = 0x3 ∨ r.op = 0x4 ∨ r.op = 0x7) ∧ Config.maxBytes < r.n →
    decode (.request r) = .error (.sequenceTooLong r.n))

/-- 30_encoding.md R71: the fields of the packed data object bit by bit, as written and as read; a result is
canonical, so equal words are equal records; non-canonical bits of an operand come out 0. -/
def Obligations.PackedObjectLayout : Prop :=
  (∀ o : DataObject,
    let w := packObj o
    nameOfCode (w.extractLsb' 0 4) = o.cmd ∧
    nameOfCode (w.extractLsb' 4 4) = o.state ∧
    nameOfCode (w.extractLsb' 8 4) = o.direction ∧
    nameOfCode (w.extractLsb' 12 4) = o.tilt ∧
    w.getLsbD 16 = o.tiltUp ∧
    w.getLsbD 17 = o.tiltDown ∧
    w.getLsbD 18 = o.address.isSome ∧
    w.extractLsb' 19 16 = o.address.getD 0 ∧
    w.getLsbD 35 = o.unit.isSome ∧
    w.extractLsb' 36 4 = o.unit.getD 0 ∧
    w.getLsbD 40 = o.group.isSome ∧
    w.getLsbD 41 = o.group.getD false ∧
    w.getLsbD 42 = o.id.isSome ∧
    w.extractLsb' 43 20 = o.id.getD 0 ∧
    w.getLsbD 63 = false) ∧
  (∀ o : DataObject, unpackObj (packObj o) = o) ∧
  (∀ o o' : DataObject, packObj o = packObj o' ↔ o = o') ∧
  (∀ w : BitVec 64,
    let o := unpackObj w
    codeOfName o.cmd = w.extractLsb' 0 4 ∧
    codeOfName o.state = w.extractLsb' 4 4 ∧
    codeOfName o.direction = w.extractLsb' 8 4 ∧
    codeOfName o.tilt = w.extractLsb' 12 4 ∧
    o.tiltUp = w.getLsbD 16 ∧
    o.tiltDown = w.getLsbD 17 ∧
    o.address = (if w.getLsbD 18 then some (w.extractLsb' 19 16) else none) ∧
    o.unit = (if w.getLsbD 35 then some (w.extractLsb' 36 4) else none) ∧
    o.group = (if w.getLsbD 40 then some (w.getLsbD 41) else none) ∧
    o.id = (if w.getLsbD 42 then some (w.extractLsb' 43 20) else none)) ∧
  packObj {} = 0

/-- 30_encoding.md R72: the four bits of the packed control input. -/
def Obligations.PackedControlLayout : Prop :=
  ∀ c : Ctl, unpackCtl (packCtl c) = c ∧
    (packCtl c).getLsbD 0 = c.rot180 ∧
    (packCtl c).getLsbD 1 = c.invertTilt ∧
    (packCtl c).getLsbD 2 = (c.dir == .outbound) ∧
    (packCtl c).getLsbD 3 = c.pairing

/-- 30_encoding.md R70: the sixteen NameCodes, nine named and seven distinct unrecognised ones. -/
def Obligations.NameCodesNameTheNames : Prop :=
  nameOfCode 0 = none ∧ nameOfCode 1 = some .up ∧ nameOfCode 2 = some .down ∧ nameOfCode 3 = some .idle ∧
  nameOfCode 4 = some .confirm ∧ nameOfCode 5 = some .setLimit ∧ nameOfCode 6 = some .my ∧
  nameOfCode 7 = some .deepUp ∧ nameOfCode 8 = some .deepDown ∧
  (∀ c : Nibble, 9 ≤ c.toNat → ∃ k, nameOfCode c = some (.other k) ∧ c.toNat = 9 + k.val) ∧
  (∀ c : Nibble, codeOfName (nameOfCode c) = c) ∧
  (∀ m : Option CmdName, nameOfCode (codeOfName m) = m)

/-! ### The step, the handshake, reset -/

/-- 10_state.md R34: a cycle that takes a word which decodes to `i` is `exec i`, after which the clock advances and
the block's own state is what `exec` left.  The second clause, what the clock's advance does to the other fields, is
the model's choice and no rule of the spec: the environment's inputs come from the script
(notes/assumptions/6.md) and the model's counter grows by 1 (notes/assumptions/7.md).  That a step is one clock cycle
is deduced (notes/assumptions/10.md). -/
def Obligations.StepRunsTheDecodedInstruction : Prop :=
  ∀ (s : State) (w : Offer) (i : Instr), s.takes w → decode w = .ok i →
    (step s = match exec i s with
      | .next t => .next t.nextCycle
      | .fault e => .fault e
      | .refused e => .refused e) ∧
    ∀ t : State, t.nextCycle = { busy := t.busy, flight := t.flight, inputs := t.script.headD {},
                                 script := t.script.tail, tick := t.tick + 1 }

/-- 30_encoding.md R75 and U16 of 93_implementation_defined.md: a length beyond the interface's bounds is outside
the spec, and the step refuses it by name. -/
def Obligations.OverlongSequenceIsRefused : Prop :=
  ∀ (s : State) (r : Request), s.takes (.request r) →
    ((r.op = 0x1 ∨ r.op = 0xA) ∧ Config.maxBits < r.n ∨
      (r.op = 0x2 ∨ r.op = 0x3 ∨ r.op = 0x4 ∨ r.op = 0x7) ∧ Config.maxBytes < r.n) →
    step s = .refused (.sequenceTooLong r.n)

/-- 30_encoding.md R66, 60_exceptions.md R182 and R187, on a bare frame (notes/assumptions/2.md): one whose code is
in no row of the table is answered UnknownCommandCode, or MalformedPayload when its checksum is wrong. -/
def Obligations.UnmappedBareFrameIsAnswered : Prop :=
  ∀ (s : State) (f : WireFrame), s.takes (.wire f) →
    highNibble f.b2 ∉ [0xC, 0x1, 0x5, 0x4, 0x2] →
    step s = .next (s.answer (noResult (if verifies f.bytes then 2 else 1))).nextCycle

/-- 10_state.md R33, R34 and 70_reset_and_hazards.md R204: while BUSY is 1 the offered word does not matter. -/
def Obligations.BusyBlockTakesNoRequest : Prop :=
  ∀ (s : State) (w : Option Offer), s.busy = true →
    step { s with inputs := { s.inputs with offer := w } } = step s

/-- 10_state.md R34: an offered response is held until the cycle in which `rsp_ready` is 1, and is taken in that
cycle; then BUSY is 0 and the block is as after reset (60_exceptions.md R189). -/
def Obligations.OfferedResponseIsHeldUntilTaken : Prop :=
  ∀ (s : State) (r : Rsp), s.busy = true → s.inputs.rst = false → s.offered = some r →
    ∃ t, step s = .next t ∧
      (s.inputs.rspReady = false →
        t.busy = true ∧ t.rspValid = true ∧ t.rspPorts = s.rspPorts ∧ t.rspPorts = r) ∧
      (s.inputs.rspReady = true →
        t.busy = State.reset.busy ∧ t.flight = State.reset.flight ∧ t.reqReady = true ∧ t.rspValid = false)

/-- 10_state.md R34: the block offers a response to every word it takes and does not refuse, without any further input
but the absence of reset: the response its instruction gives, or, for a bare frame with an unmapped code
(notes/assumptions/2.md), the no-result response of FDEC.  R34 and 70_reset_and_hazards.md R214 fix no number of
cycles: that the response is offered after exactly LAT cycles, counted from the cycle after the taking one, is the
model's choice, notes/assumptions/4.md, and that the later inputs stand in the script is notes/assumptions/6.md. -/
def Obligations.TakenRequestIsAnswered : Prop :=
  ∀ (s : State) (w : Offer), s.takes w → (∀ n, decode w ≠ .error (.sequenceTooLong n)) →
    (∀ p ∈ s.script.take (Config.lat s.tick), p.rst = false) →
    ∃ t r, Host.Core.run Sys2Proof.core (Config.lat s.tick + 1) s = .next t ∧
      t.rspValid = true ∧ t.rspPorts = r ∧ t.reqReady = false ∧
      (∀ i, decode w = .ok i → exec i s = .next (s.answer r)) ∧
      (∀ f, decode w = .error (.unmappedCode f) →
        w = .wire f ∧ r = noResult (if verifies f.bytes then 2 else 1))

/-- 10_state.md R35 and 70_reset_and_hazards.md R200: reset makes BUSY 0 in any state and abandons a transaction in
flight without a response.  That a word offered, or a response taken, in the cycle with `rst` 1 has no effect is the
model's deduction from R33 and R35, notes/assumptions/9.md; that the inputs come from the script is its choice,
notes/assumptions/6.md. -/
def Obligations.ResetAbandonsTheTransaction : Prop :=
  ∀ s : State, s.inputs.rst = true →
    ∃ t, step s = .next t ∧ t.busy = false ∧ t.flight = none ∧ t.reqReady = true ∧ t.rspValid = false ∧
      t.inputs = s.script.headD {} ∧ t.script = s.script.tail

/-- 10_state.md R35: the values after reset. -/
def Obligations.ResetLeavesTheBlockReady : Prop :=
  State.reset.busy = false ∧ State.reset.reqReady = true ∧ State.reset.rspValid = false

/-- 10_state.md R33, R34: with BUSY 0, no reset and nothing offered, a cycle changes nothing of the block. -/
def Obligations.QuietCycleChangesNothing : Prop :=
  ∀ s : State, s.inputs.rst = false → s.busy = false → s.inputs.offer = none →
    ∃ t, step s = .next t ∧ t.busy = s.busy ∧ t.flight = s.flight

/-- 10_state.md R33, 30_encoding.md R71, R74, R75, 60_exceptions.md R180: BUSY is 1 exactly while a transaction is
in flight, and every response in flight is legal (`legalRsp`).  Every step keeps it.  Which of the two lengths of R75,
in bytes or in bits, a response carries is said by the statement of its operation. -/
def Obligations.EveryStepKeepsTheHandshakeInvariant : Prop :=
  ∀ s t : State, s.Inv → step s = .next t → t.Inv

/-- The invariant of `EveryStepKeepsTheHandshakeInvariant` holds after reset (10_state.md R35). -/
def Obligations.ResetHasTheHandshakeInvariant : Prop :=
  State.reset.Inv

/-- What an instruction leaves alone, for every instruction: the inputs, what the environment drives later and the
model's counter; what it sets: BUSY, and one transaction in flight (10_state.md R33, R34, R20).  That the latency is
the parameter's value at the model's counter is the model's choice, notes/assumptions/4.md. -/
def Obligations.InstructionsTouchOnlyTheTransaction : Prop :=
  ∀ (i : Instr) (s t : State), exec i s = .next t →
    t.inputs = s.inputs ∧ t.script = s.script ∧ t.tick = s.tick ∧ t.busy = true ∧
    ∃ f, t.flight = some f ∧ f.wait = Config.lat s.tick

/-- 10_state.md R20, 20_memory.md R52: the response to a request is the same whatever state it is taken in. -/
def Obligations.ResponseDependsOnTheRequestAlone : Prop :=
  ∀ (w : Offer) (s s' : State), s.takes w → s'.takes w →
    ∀ t, step s = .next t →
      ∃ t' f f', step s' = .next t' ∧ t.flight = some f ∧ t'.flight = some f' ∧ f.rsp = f'.rsp

/-- 60_exceptions.md R180, 30_encoding.md R74: every instruction answers, with its result or with one named outcome;
`rsp_reason = 0` exactly with `rsp_ok = 1`, codes 6 and 7 are never produced, and a no-result response delivers
nothing else. -/
def Obligations.EveryInstructionAnswersOneWay : Prop :=
  ∀ (i : Instr) (s : State), ∃ r, exec i s = .next (s.answer r) ∧
    (r.reason = 0 ↔ r.ok = true) ∧ r.reason.toNat ≤ 5 ∧ (r.ok = false → r = noResult r.reason)

/-- 60_exceptions.md R186: the nine operations that always answer `ok = 1`; VERIFY's verdict on a short sequence and
B2BY's residue are results. -/
def Obligations.NineOperationsAlwaysSucceed : Prop :=
  ∀ s : State,
    (∀ i : Instr,
      ((∃ x, i = .b2by x) ∨ (∃ x, i = .by2b x) ∨ (∃ x, i = .csum x) ∨ (∃ x, i = .verify x) ∨ (∃ x, i = .psyn x) ∨
        (∃ x d, i = .rot x d) ∨ (∃ x, i = .tinv x) ∨ (∃ x, i = .legacyAlias x) ∨ (∃ x c, i = .norm x c)) →
      ∃ r, exec i s = .next (s.answer r) ∧ r.ok = true ∧ r.reason = 0) ∧
    (∀ i r, exec i s = .next (s.answer r) → r.ok = false →
      (∃ f, encode i = .wire f) ∨ i = .reserved ∨ (∃ x, i = .cmdname x) ∨ (∃ x, i = .cmdcode x) ∨
        (∃ x, i = .fdec x) ∨ (∃ x, i = .fenc x) ∨ (∃ x c, i = .rx x c) ∨ (∃ x c, i = .tx x c))

/-- 60_exceptions.md R185: the reserved select answers BadOp whatever stands on the other ports. -/
def Obligations.ReservedSelectAnswersBadOp : Prop :=
  (∀ r : Request, r.op = 0x0 → decode (.request r) = .ok .reserved) ∧
  ∀ s : State, exec .reserved s = .next (s.answer (noResult 5))

/-! ### BitStream Codec -/

/-- 40_bitstream_codec.md R100: bit `i` of byte `k` is wire bit `8k + i`; the last `len mod 8` bits are the residue,
unchanged; `ok = 1` always. -/
def Obligations.B2byGroupsBitsByEight : Prop :=
  (∀ r : Request, r.op = 0x1 → r.n ≤ Config.maxBits →
    decode (.request r) = .ok (.b2by (bitsOfVector r.n r.seq))) ∧
  ∀ (bits : List Bool) (s : State), ∃ r, exec (.b2by bits) s = .next (s.answer r) ∧
    r = { zeroRsp with ok := true, n := bits.length / 8, seq := r.seq, rn := r.rn, res := r.res } ∧
    r.rn.toNat = bits.length % 8 ∧
    (∀ k i, k < bits.length / 8 → i < 8 → r.seq.testBit (8 * k + i) = bits.getD (8 * k + i) false) ∧
    (∀ j, 8 * (bits.length / 8) ≤ j → r.seq.testBit j = false) ∧
    (∀ i, i < 7 → r.res.getLsbD i = bits.getD (8 * (bits.length / 8) + i) false)

/-- 40_bitstream_codec.md R101: wire bit `8k + i` is bit `i` of byte `k`; the length is eight times the number of
bytes; `ok = 1` always. -/
def Obligations.By2bEmitsLeastSignificantBitFirst : Prop :=
  (∀ r : Request, r.op = 0x2 → r.n ≤ Config.maxBytes →
    decode (.request r) = .ok (.by2b (bytesOfVector r.n r.seq))) ∧
  ∀ (bytes : List Byte) (s : State), ∃ r, exec (.by2b bytes) s = .next (s.answer r) ∧
    r = { zeroRsp with ok := true, n := 8 * bytes.length, seq := r.seq } ∧
    (∀ k i, i < 8 → r.seq.testBit (8 * k + i) = (bytes.getD k 0).getLsbD i)

/-- 40_bitstream_codec.md R102: no bit is lost, added or moved by the pair, and both keep length exactly. -/
def Obligations.BitCodecRoundTrips : Prop :=
  (∀ bytes : List Byte, bitsToBytes (bytesToBits bytes) = (bytes, [])) ∧
  (∀ bits : List Bool, bytesToBits (bitsToBytes bits).1 ++ (bitsToBytes bits).2 = bits) ∧
  (∀ bits : List Bool, bits.length % 8 = 0 → (bitsToBytes bits).2 = [] ∧ bytesToBits (bitsToBytes bits).1 = bits) ∧
  (∀ bytes : List Byte, (bytesToBits bytes).length = 8 * bytes.length) ∧
  (∀ bits : List Bool, 8 * (bitsToBytes bits).1.length + (bitsToBytes bits).2.length = bits.length ∧
    (bitsToBytes bits).2.length = bits.length % 8)

/-! ### Checksum Engine -/

/-- 41_checksum_engine.md R110: the accumulator starts at 0x01 and each byte in order is subtracted from
`0x100 | accumulator`, masked to 8 bits; the result is the last accumulator; `ok = 1` always. -/
def Obligations.CsumRunsTheSubtraction : Prop :=
  (∀ r : Request, r.op = 0x3 → r.n ≤ Config.maxBytes →
    decode (.request r) = .ok (.csum (bytesOfVector r.n r.seq))) ∧
  ∀ (bytes : List Byte) (s : State), ∃ (r : Rsp) (acc : Nat → Nat),
    exec (.csum bytes) s = .next (s.answer r) ∧
    r = { zeroRsp with ok := true, byte := r.byte } ∧
    acc 0 = 0x01 ∧
    (∀ k, k < bytes.length → acc (k + 1) = ((0x100 ||| acc k) - (bytes.getD k 0).toNat) &&& 0xFF) ∧
    r.byte.toNat = acc bytes.length

/-- 41_checksum_engine.md R112: the closed form `(1 - sum) mod 256`, and that the order of the bytes does not matter
(90_conflicts.md C1). -/
def Obligations.CsumIsOneMinusTheByteSum : Prop :=
  (∀ bytes : List Byte,
    ((csum bytes).toNat : Int) = (1 - ((bytes.map BitVec.toNat).sum : Int)) % 256) ∧
  ∀ a b : List Byte, a.Perm b → csum a = csum b

/-- 41_checksum_engine.md R111: false below 2 bytes; otherwise whether the checksum of all bytes but the last equals
the last; `ok = 1` always. -/
def Obligations.VerifyComparesTheLastByte : Prop :=
  (∀ r : Request, r.op = 0x4 → r.n ≤ Config.maxBytes →
    decode (.request r) = .ok (.verify (bytesOfVector r.n r.seq))) ∧
  (∀ s : State, exec (.verify []) s = .next (s.answer { zeroRsp with ok := true, bool := false })) ∧
  ∀ (init : List Byte) (last : Byte) (s : State),
    exec (.verify (init ++ [last])) s =
      .next (s.answer { zeroRsp with ok := true, bool := !init.isEmpty && csum init == last })

/-- 41_checksum_engine.md R113 (a), (b), (c): a sequence with its checksum verifies, and flipping any one bit of it,
in the payload or in the checksum byte, makes VERIFY false. -/
def Obligations.VerifyDetectsEverySingleBitFlip : Prop :=
  ∀ b : List Byte, b ≠ [] →
    verifies (b ++ [csum b]) = true ∧
    ∀ k j, k ≤ b.length → j < 8 →
      verifies ((b ++ [csum b]).set k ((b ++ [csum b]).getD k 0 ^^^ BitVec.twoPow 8 j)) = false

/-! ### Command Map -/

/-- 42_command_mapper.md R120: the name of each of the five codes as a NameCode, NoMatch for the other eleven, which
FDEC reports as UnknownCommandCode. -/
def Obligations.CmdnameLooksUpTheCode : Prop :=
  (∀ r : Request, r.op = 0x5 → decode (.request r) = .ok (.cmdname r.nib)) ∧
  (∀ (code : Nibble) (s : State), exec (.cmdname code) s = .next (s.answer (
    if code = 0xC then { zeroRsp with ok := true, nib := 1 }
    else if code = 0x1 then { zeroRsp with ok := true, nib := 2 }
    else if code = 0x5 then { zeroRsp with ok := true, nib := 3 }
    else if code = 0x4 then { zeroRsp with ok := true, nib := 4 }
    else if code = 0x2 then { zeroRsp with ok := true, nib := 5 }
    else noResult 4))) ∧
  ∀ (bytes : List Byte) (s : State), 5 ≤ bytes.length → verifies bytes = true →
    exec (.cmdname (highNibble (bytes.getD 2 0))) s = .next (s.answer (noResult 4)) →
    exec (.fdec bytes) s = .next (s.answer (noResult 2))

/-- 42_command_mapper.md R121: the code of each of the five names, NoMatch for every other name and for no name,
which FENC reports as UnresolvableEncodeRequest. -/
def Obligations.CmdcodeLooksUpTheName : Prop :=
  (∀ r : Request, r.op = 0x6 → decode (.request r) = .ok (.cmdcode (nameOfCode r.nib))) ∧
  (∀ (name : Option CmdName) (s : State), exec (.cmdcode name) s = .next (s.answer (
    match name with
    | some .up => { zeroRsp with ok := true, nib := 0xC }
    | some .down => { zeroRsp with ok := true, nib := 0x1 }
    | some .idle => { zeroRsp with ok := true, nib := 0x5 }
    | some .confirm => { zeroRsp with ok := true, nib := 0x4 }
    | some .setLimit => { zeroRsp with ok := true, nib := 0x2 }
    | _ => noResult 4))) ∧
  ∀ (o : DataObject) (s : State), o.tiltUp = false → o.tiltDown = false →
    exec (.cmdcode (if o.cmd.isSome then o.cmd else o.state)) s = .next (s.answer (noResult 4)) →
    exec (.fenc o) s = .next (s.answer (noResult 3))

/-- 42_command_mapper.md R122 over the table of 10_state.md R27: the two lookups are inverse to each other, and
succeed on exactly the five codes and the five names. -/
def Obligations.CommandTableIsABijection : Prop :=
  (∀ (c : Nibble) (m : CmdName), nameForCode c = .ok m ↔ codeForName (some m) = .ok c) ∧
  (∀ c : Nibble, (∃ m, nameForCode c = .ok m) ↔ c ∈ [0xC, 0x1, 0x5, 0x4, 0x2]) ∧
  (∀ m : Option CmdName, (∃ c, codeForName m = .ok c) ↔
    m ∈ [some .up, some .down, some .idle, some .confirm, some .setLimit])

/-! ### Frame Codec -/

/-- 43_frame_codec.md R130: FDEC in the order of its steps, with the fields computed as numbers. -/
def Obligations.FdecDecodesTheFrame : Prop :=
  (∀ r : Request, r.op = 0x7 → r.n ≤ Config.maxBytes →
    decode (.request r) = .ok (.fdec (bytesOfVector r.n r.seq))) ∧
  ∀ (bytes : List Byte) (s : State),
    let b (k : Nat) : Nat := (bytes.getD k 0).toNat
    let address := b 0 * 256 + b 1
    let unit := b 2 % 16
    let o (m : CmdName) : DataObject :=
      { address := some (BitVec.ofNat 16 address), unit := some (BitVec.ofNat 4 unit), group := some (unit == 0)
        cmd := some m, id := some (BitVec.ofNat 20 (address * 16 + unit)) }
    exec (.fdec bytes) s = .next (s.answer (
      if bytes.length < 5 then noResult 1
      else if verifies bytes = false then noResult 1
      else if b 2 / 16 = 0xC then
        if b 3 / 16 = 1 then objectResult { o .up with tiltUp := true, tilt := some .up }
        else objectResult { o .up with state := some .up, direction := some .up }
      else if b 2 / 16 = 0x1 then
        if b 3 / 16 = 1 then objectResult { o .down with tiltDown := true, tilt := some .down }
        else objectResult { o .down with state := some .down, direction := some .down }
      else if b 2 / 16 = 0x5 then objectResult { o .idle with state := some .idle }
      else if b 2 / 16 = 0x4 then objectResult (o .confirm)
      else if b 2 / 16 = 0x2 then objectResult (o .setLimit)
      else noResult 2))

/-- 43_frame_codec.md R131: FENC in the order of its steps, with the payload bytes computed as numbers. -/
def Obligations.FencEncodesTheObject : Prop :=
  (∀ r : Request, r.op = 0x8 → decode (.request r) = .ok (.fenc (unpackObj r.obj))) ∧
  ∀ (o : DataObject) (s : State),
    let name : Option CmdName :=
      if o.tiltUp then some .up else if o.tiltDown then some .down
      else match o.cmd with
        | some m => some m
        | none => o.state
    let unit : Nat := (o.unit.getD 0).toNat
    let byte3 : Nat := if o.tiltUp || o.tiltDown then 0x10 else 0x00
    let send (a : BitVec 16) (code : Nat) : Rsp :=
      let payload : List Byte := [a.toNat / 256, a.toNat % 256, code * 16 + unit, byte3].map (BitVec.ofNat 8)
      { zeroRsp with ok := true, n := 5, seq := vectorOfBytes (payload ++ [csum payload]) }
    exec (.fenc o) s = .next (s.answer (
      match o.address, name with
      | some a, some .up => send a 0xC
      | some a, some .down => send a 0x1
      | some a, some .idle => send a 0x5
      | some a, some .confirm => send a 0x4
      | some a, some .setLimit => send a 0x2
      | _, _ => noResult 3))

/-- 43_frame_codec.md R132 (a) to (d): frame to bytes to frame, and that FDEC's result encodes to the same bytes. -/
def Obligations.FrameRoundTrips : Prop :=
  ∀ (a : BitVec 16) (u : Nibble),
    let given : DataObject := { address := some a, unit := some u }
    let full : DataObject :=
      { given with group := some (u == 0), id := some (BitVec.ofNat 20 (a.toNat * 16 + u.toNat)) }
    let trips (o d : DataObject) : Prop :=
      ∃ b, bytesFromFrame o = .ok b ∧ frameFromBytes b = .ok d ∧ bytesFromFrame d = .ok b
    (∀ m, m = .up ∨ m = .down →
      trips { given with cmd := some m } { full with cmd := some m, state := some m, direction := some m } ∧
      trips { given with state := some m } { full with cmd := some m, state := some m, direction := some m }) ∧
    trips { given with state := some .idle } { full with cmd := some .idle, state := some .idle } ∧
    trips { given with tiltUp := true } { full with cmd := some .up, tilt := some .up, tiltUp := true } ∧
    trips { given with tiltDown := true } { full with cmd := some .down, tilt := some .down, tiltDown := true } ∧
    (∀ m, m = .confirm ∨ m = .setLimit → trips { given with cmd := some m } { full with cmd := some m })

/-- 43_frame_codec.md R133: bytes to frame to bytes gives the canonical 5-byte form, with byte 3 `0x10` for a tilt
pulse and `0x00` otherwise; it is the sequence itself exactly for 5 bytes with that byte 3. -/
def Obligations.DecodedFrameReencodesCanonically : Prop :=
  ∀ (bytes : List Byte) (d : DataObject), frameFromBytes bytes = .ok d →
    let t : Byte := if d.tiltUp || d.tiltDown then 0x10 else 0x00
    let payload : List Byte := [bytes.getD 0 0, bytes.getD 1 0, bytes.getD 2 0, t]
    bytesFromFrame d = .ok (payload ++ [csum payload]) ∧
    (bytesFromFrame d = .ok bytes ↔ bytes.length = 5 ∧ bytes.getD 3 0 = t)

/-- 43_frame_codec.md R134: a decoded object has a tilt flag with `tilt`, or `state` with `direction`, or `state`
alone, never a flag and `state`; and a tilt flag in FENC's operand suppresses `cmd` and `state`. -/
def Obligations.TravelAndTiltAreExclusive : Prop :=
  (∀ (bytes : List Byte) (d : DataObject), frameFromBytes bytes = .ok d →
    ¬ (d.state.isSome = true ∧ (d.tiltUp || d.tiltDown) = true) ∧
    ¬ (d.tiltUp = true ∧ d.tiltDown = true) ∧
    ((d.tiltUp || d.tiltDown) = true ↔ d.tilt.isSome = true) ∧
    (d.direction.isSome = true → d.direction = d.state)) ∧
  (∀ (o : DataObject) (c st : Option CmdName), (o.tiltUp || o.tiltDown) = true →
    bytesFromFrame { o with cmd := c, state := st } = bytesFromFrame o)

/-- 30_encoding.md R60, section 7 and 43_frame_codec.md R130: each WIRE40 instruction answers what FDEC answers for
the five bytes of its frame. -/
def Obligations.FrameRowsAnswerAsFdec : Prop :=
  ∀ (i : Instr) (f : WireFrame) (s : State), i.wellFormed = true → encode i = .wire f →
    exec i s = exec (.fdec f.bytes) s

/-- The seven WIRE40 rows of spec/opcode_table.json with their `semantics` (43_frame_codec.md R130, 30_encoding.md
R62, R63, R64): the object of the row when the five bytes add to 1 modulo 256 (41_checksum_engine.md R112), and
MalformedPayload otherwise. -/
def Obligations.FrameRowsGiveTheirObjects : Prop :=
  ∀ (a : BitVec 16) (u t x : Nibble) (k : Byte) (s : State),
    let answer (code tilt : Nat) (o : DataObject) : Host.Outcome State Fault Refusal :=
      .next (s.answer (
        if (a.toNat / 256 + a.toNat % 256 + (code * 16 + u.toNat) + (tilt * 16 + x.toNat) + k.toNat) % 256 = 1
        then objectResult o else noResult 1))
    let o (m : CmdName) : DataObject :=
      { address := some a, unit := some u, group := some (u == 0), cmd := some m
        id := some (BitVec.ofNat 20 (a.toNat * 16 + u.toNat)) }
    exec (.upT a u x k) s = answer 0xC 1 { o .up with tiltUp := true, tilt := some .up } ∧
    exec (.downT a u x k) s = answer 0x1 1 { o .down with tiltDown := true, tilt := some .down } ∧
    (t ≠ 1 →
      exec (.up a u t x k) s = answer 0xC t.toNat { o .up with state := some .up, direction := some .up } ∧
      exec (.down a u t x k) s = answer 0x1 t.toNat { o .down with state := some .down, direction := some .down }) ∧
    exec (.idle a u t x k) s = answer 0x5 t.toNat { o .idle with state := some .idle } ∧
    exec (.confirm a u t x k) s = answer 0x4 t.toNat (o .confirm) ∧
    exec (.setLimit a u t x k) s = answer 0x2 t.toNat (o .setLimit)

/-! ### Settings Normalizer -/

/-- 44_settings_normalizer.md R150. -/
def Obligations.PsynSetsTheMirrors : Prop :=
  (∀ r : Request, r.op = 0xF → decode (.request r) = .ok (.psyn (unpackObj r.obj))) ∧
  ∀ (o : DataObject) (s : State), exec (.psyn o) s = .next (s.answer (objectResult
    { o with
      direction := match o.state with
        | none => o.direction
        | some .idle => o.direction
        | some m => some m
      tilt := if o.tiltUp then some .up else if o.tiltDown then some .down else o.tilt }))

/-- 44_settings_normalizer.md R151: every name field by its own value, `deep_up` and `deep_down` in `cmd` outbound
only, the flags exchanged, everything else as it was. -/
def Obligations.RotSwapsEveryAxis : Prop :=
  (∀ r : Request, r.op = 0xC →
    decode (.request r) = .ok (.rot (unpackObj r.obj) (unpackCtl r.ctl)) ∧
    (unpackCtl r.ctl).dir = if r.ctl.getLsbD 2 then .outbound else .inbound) ∧
  ∀ (o : DataObject) (d : Direction) (rot180 invertTilt pairing : Bool) (s : State), ∃ o',
    exec (.rot o ⟨rot180, invertTilt, d, pairing⟩) s = .next (s.answer (objectResult o')) ∧
    (let swapped (v : Option CmdName) : Option CmdName :=
      if v = some .up then some .down else if v = some .down then some .up else v
     o' = { o with
       cmd := if d = .outbound ∧ o.cmd = some .deepUp then some .deepDown
              else if d = .outbound ∧ o.cmd = some .deepDown then some .deepUp else swapped o.cmd
       state := swapped o.state, direction := swapped o.direction, tilt := swapped o.tilt
       tiltUp := o.tiltDown, tiltDown := o.tiltUp })

/-- 44_settings_normalizer.md R152: the tilt fields only. -/
def Obligations.TinvSwapsTheTiltAxis : Prop :=
  (∀ r : Request, r.op = 0xD → decode (.request r) = .ok (.tinv (unpackObj r.obj))) ∧
  ∀ (o : DataObject) (s : State), exec (.tinv o) s = .next (s.answer (objectResult
    { o with
      tilt := if o.tilt = some .up then some .down else if o.tilt = some .down then some .up else o.tilt
      tiltUp := o.tiltDown, tiltDown := o.tiltUp }))

/-- 44_settings_normalizer.md R153: `my` becomes `state` idle with `cmd` dropped; any other object is unchanged. -/
def Obligations.LegacyNameIsResolved : Prop :=
  (∀ r : Request, r.op = 0xE → decode (.request r) = .ok (.legacyAlias (unpackObj r.obj))) ∧
  ∀ (o : DataObject) (s : State), exec (.legacyAlias o) s = .next (s.answer (objectResult
    (match o.cmd with
      | some .my => { o with state := some .idle, cmd := none }
      | _ => o)))

/-- 44_settings_normalizer.md R154: the four steps in order, each under its condition. -/
def Obligations.NormAppliesTheStepsInOrder : Prop :=
  (∀ r : Request, r.op = 0x9 → decode (.request r) = .ok (.norm (unpackObj r.obj) (unpackCtl r.ctl))) ∧
  ∀ (o : DataObject) (rot inv pair : Bool) (s : State),
    let turned (d : Direction) (x : DataObject) : DataObject :=
      let y := if rot then rotate x d else x
      if inv then invertTilt y else y
    exec (.norm o ⟨rot, inv, .inbound, pair⟩) s =
      .next (s.answer (objectResult (turned .inbound (if pair then synthesize o else o)))) ∧
    exec (.norm o ⟨rot, inv, .outbound, pair⟩) s =
      .next (s.answer (objectResult (resolveMy (turned .outbound o))))

/-- 44_settings_normalizer.md R155: rotation and inversion are involutions, synthesis and the alias are idempotent,
and NORM without pairing is an involution, outbound on objects whose `cmd` is not `my`. -/
def Obligations.RotationAndInversionAreInvolutions : Prop :=
  (∀ (o : DataObject) (d : Direction), rotate (rotate o d) d = o) ∧
  (∀ o : DataObject, invertTilt (invertTilt o) = o) ∧
  (∀ o : DataObject, synthesize (synthesize o) = synthesize o ∧ resolveMy (resolveMy o) = resolveMy o) ∧
  (∀ (o : DataObject) (c : Ctl), c.pairing = false → (c.dir = .outbound → o.cmd ≠ some .my) →
    normalizeObject (normalizeObject o c) c = o)

/-- 44_settings_normalizer.md R156 (a) to (d): rotation and inversion commute and together leave the tilt fields as
they were; the alias commutes with both; synthesis commutes with both on an object that has not both flags. -/
def Obligations.NormalizerStepsCommute : Prop :=
  ∀ (o : DataObject) (d : Direction),
    invertTilt (rotate o d) = rotate (invertTilt o) d ∧
    invertTilt (rotate o d) = { rotate o d with tilt := o.tilt, tiltUp := o.tiltUp, tiltDown := o.tiltDown } ∧
    resolveMy (rotate o d) = rotate (resolveMy o) d ∧
    resolveMy (invertTilt o) = invertTilt (resolveMy o) ∧
    (¬ (o.tiltUp = true ∧ o.tiltDown = true) →
      synthesize (rotate o d) = rotate (synthesize o) d ∧
      synthesize (invertTilt o) = invertTilt (synthesize o))

/-- 44_settings_normalizer.md R157: `address`, `unit`, `group` and `id` pass through every operation of the
normalizer; an unrecognised name passes unchanged through ROT in all four name fields, through TINV in `tilt`, and
through NORM in `cmd` and, where the alias does not overwrite it, in `state`. -/
def Obligations.NormalizerKeepsIdentityFields : Prop :=
  ∀ (o : DataObject) (d : Direction) (c : Ctl),
    let same (o' : DataObject) : Prop :=
      o'.address = o.address ∧ o'.unit = o.unit ∧ o'.group = o.group ∧ o'.id = o.id
    same (synthesize o) ∧ same (rotate o d) ∧ same (invertTilt o) ∧ same (resolveMy o) ∧ same (normalizeObject o c) ∧
    ∀ k,
      (o.cmd = some (.other k) → (rotate o d).cmd = o.cmd ∧ (normalizeObject o c).cmd = o.cmd) ∧
      (o.state = some (.other k) → (rotate o d).state = o.state ∧
        (o.cmd ≠ some .my → (normalizeObject o c).state = o.state)) ∧
      (o.direction = some (.other k) → (rotate o d).direction = o.direction) ∧
      (o.tilt = some (.other k) → (rotate o d).tilt = o.tilt ∧ (invertTilt o).tilt = o.tilt)

/-! ### Pipelines -/

/-- 45_pipelines.md R170: residue first, then FDEC on the complete bytes, then NORM inbound with the direction
forced; a stage without a result ends the pipeline with its outcome. -/
def Obligations.RxChainsTheInboundStages : Prop :=
  (∀ r : Request, r.op = 0xA → r.n ≤ Config.maxBits →
    decode (.request r) = .ok (.rx (bitsOfVector r.n r.seq) (unpackCtl r.ctl))) ∧
  (∀ (bits : List Bool) (ctl : Ctl) (s : State), bits.length % 8 ≠ 0 ∨ bits.length < 40 →
    exec (.rx bits ctl) s = .next (s.answer (noResult 1))) ∧
  ∀ (bytes : List Byte) (ctl : Ctl) (s : State),
    exec (.rx (bytesToBits bytes) ctl) s = .next (s.answer (
      match frameFromBytes bytes with
      | .ok d => objectResult (normalizeObject d ⟨ctl.rot180, ctl.invertTilt, .inbound, ctl.pairing⟩)
      | .error .unknownCommandCode => noResult 2
      | .error _ => noResult 1))

/-- 45_pipelines.md R171: NORM outbound with the direction forced, FENC, BY2B; `pairing` has no effect; 40 bits. -/
def Obligations.TxChainsTheOutboundStages : Prop :=
  (∀ r : Request, r.op = 0xB → decode (.request r) = .ok (.tx (unpackObj r.obj) (unpackCtl r.ctl))) ∧
  ∀ (o : DataObject) (ctl : Ctl) (s : State),
    exec (.tx o ctl) s = .next (s.answer (
      match bytesFromFrame (normalizeObject o ⟨ctl.rot180, ctl.invertTilt, .outbound, false⟩) with
      | .ok bytes => { zeroRsp with ok := true, n := 40, seq := vectorOfBits (bytesToBits bytes) }
      | .error _ => noResult 3))

/-- 45_pipelines.md R172 (a), (b): the bits carry exactly the five bytes, and a receiver with no settings sees what
was sent. -/
def Obligations.WireCarriesTheFrameUnchanged : Prop :=
  ∀ (o : DataObject) (c : Ctl) (bits : List Bool), transmit o c = .ok bits →
    ∃ bytes, bytesFromFrame (normalizeObject o { c with dir := .outbound }) = .ok bytes ∧
      bits.length = 40 ∧ bitsToBytes bits = (bytes, []) ∧
      receive bits ⟨false, false, .inbound, false⟩ = frameFromBytes bytes

/-- 45_pipelines.md R172 (c): with the same settings at both ends and no pairing the settings cancel, for an object
with at most one tilt flag and, under inversion, with none. -/
def Obligations.SettingsCancelOverTheWire : Prop :=
  ∀ (o : DataObject) (c : Ctl), c.pairing = false →
    ¬ (o.tiltUp = true ∧ o.tiltDown = true) →
    (c.invertTilt = true → o.tiltUp = false ∧ o.tiltDown = false) →
    (∀ e, transmit o c = .error e ↔ bytesFromFrame (resolveMy o) = .error e) ∧
    (∀ bits, transmit o c = .ok bits →
      ∃ bytes, bytesFromFrame (resolveMy o) = .ok bytes ∧ receive bits c = frameFromBytes bytes)

/-- 45_pipelines.md R173: RX answers as the chain B2BY, FDEC, NORM, and TX as the chain NORM, FENC, BY2B, sent as
separate transactions, each stage taking the response ports of the one before as its request ports.  A stage without a
result ends the pipeline with that stage's outcome (for B2BY, whose residue is a result, the residue test of R170 does).
NORM gets the same `Ctl` with `dir` forced, as R170 and R171 say. -/
def Obligations.StagesChainThroughThePorts : Prop :=
  (∀ (bits : List Bool) (c : Ctl) (s : State), bits.length ≤ Config.maxBits →
    let inbound : Ctl := { c with dir := .inbound }
    decode (.request { op := 0x1, n := bits.length, seq := vectorOfBits bits }) = .ok (.b2by bits) ∧
    ∃ r1, exec (.b2by bits) s = .next (s.answer r1) ∧
      (r1.rn ≠ 0 → exec (.rx bits c) s = .next (s.answer (noResult 1))) ∧
      (r1.rn = 0 → ∃ bytes r2,
        decode (.request { op := 0x7, n := r1.n, seq := r1.seq }) = .ok (.fdec bytes) ∧
        exec (.fdec bytes) s = .next (s.answer r2) ∧
        (r2.ok = false → exec (.rx bits c) s = .next (s.answer r2)) ∧
        (r2.ok = true → ∃ d,
          decode (.request { op := 0x9, obj := r2.obj, ctl := packCtl inbound }) = .ok (.norm d inbound) ∧
          exec (.rx bits c) s = exec (.norm d inbound) s))) ∧
  (∀ (o : DataObject) (c : Ctl) (s : State),
    let outbound : Ctl := { c with dir := .outbound }
    decode (.request { op := 0x9, obj := packObj o, ctl := packCtl outbound }) = .ok (.norm o outbound) ∧
    ∃ r1, exec (.norm o outbound) s = .next (s.answer r1) ∧ ∃ n r2,
      decode (.request { op := 0x8, obj := r1.obj }) = .ok (.fenc n) ∧
      exec (.fenc n) s = .next (s.answer r2) ∧
      (r2.ok = false → exec (.tx o c) s = .next (s.answer r2)) ∧
      (r2.ok = true → ∃ bytes,
        decode (.request { op := 0x2, n := r2.n, seq := r2.seq }) = .ok (.by2b bytes) ∧
        exec (.tx o c) s = exec (.by2b bytes) s))

/-- Which fields of `Ctl` an operation's response depends on.  RX ignores `dir` and TX ignores `dir` and `pairing` (45_pipelines.md R170,
R171).  The operations of the codec, the checksum, the map and the frame, and TINV, ALIAS and PSYN, read no control bit
(10_state.md R24, 30_encoding.md R73).  ROT takes the whole `Ctl`, and its response depends on `dir` alone ("the other
`Ctl` bits are ignored", 44_settings_normalizer.md R151; 30_encoding.md R73).  R24's table lists ROT beside `rot180`
too; that this has no effect on ROT is notes/assumptions/12.md. -/
def Obligations.ControlBitsNotReadAreIgnored : Prop :=
  (∀ (bits : List Bool) (c : Ctl) (d : Direction) (s : State),
    exec (.rx bits { c with dir := d }) s = exec (.rx bits c) s) ∧
  (∀ (o : DataObject) (c : Ctl) (d : Direction) (p : Bool) (s : State),
    exec (.tx o { c with dir := d, pairing := p }) s = exec (.tx o c) s) ∧
  (∀ (r : Request) (ctl : BitVec 4), r.op.toNat ∉ [0x9, 0xA, 0xB, 0xC] →
    decode (.request { r with ctl := ctl }) = decode (.request r)) ∧
  (∀ (r : Request) (ctl : BitVec 4), r.op = 0xC → ctl.getLsbD 2 = r.ctl.getLsbD 2 →
    ∃ i i', decode (.request r) = .ok i ∧ decode (.request { r with ctl := ctl }) = .ok i' ∧
      ∀ s : State, exec i s = exec i' s)

/-- 60_exceptions.md R187: a wrong checksum is reported before an unmapped code, a residue before everything, and
every failure of an encode is the one outcome UnresolvableEncodeRequest. -/
def Obligations.FirstCauseIsReported : Prop :=
  (∀ (bytes : List Byte) (s : State), bytes.length < 5 ∨ verifies bytes = false →
    exec (.fdec bytes) s = .next (s.answer (noResult 1))) ∧
  (∀ (bits : List Bool) (c : Ctl) (s : State), bits.length % 8 ≠ 0 →
    exec (.rx bits c) s = .next (s.answer (noResult 1))) ∧
  (∀ s : State, exec (.fdec [0x00, 0x05, 0x30, 0x00, 0x00]) s = .next (s.answer (noResult 1))) ∧
  (∀ (o : DataObject) (c : Ctl) (s : State) (r : Rsp), r.ok = false →
    exec (.fenc o) s = .next (s.answer r) ∨ exec (.tx o c) s = .next (s.answer r) → r = noResult 3)
end

