-- ==== Sys2Proof/Laws/State.lean ====
section
/-!
SUPPORT. One lemma per field per update of `State`, and the values after reset.
-/

namespace Sys2Proof.Machine

variable (s : State) (r : Rsp) (e : Reason) (nbits w : Nat)

@[simp] theorem answer_busy : (s.answer r).busy = true := rfl
@[simp] theorem answer_flight : (s.answer r).flight = some { wait := Config.lat s.tick, rsp := r } := rfl
@[simp] theorem answer_inputs : (s.answer r).inputs = s.inputs := rfl
@[simp] theorem answer_script : (s.answer r).script = s.script := rfl
@[simp] theorem answer_tick : (s.answer r).tick = s.tick := rfl

@[simp] theorem raise_eq_answer : s.raise e = s.answer (rspNoResult e) := rfl

@[simp] theorem applyReset_busy : s.applyReset.busy = false := rfl
@[simp] theorem applyReset_flight : s.applyReset.flight = none := rfl
@[simp] theorem applyReset_inputs : s.applyReset.inputs = s.inputs := rfl
@[simp] theorem applyReset_script : s.applyReset.script = s.script := rfl
@[simp] theorem applyReset_tick : s.applyReset.tick = s.tick := rfl

@[simp] theorem nextCycle_busy : s.nextCycle.busy = s.busy := rfl
@[simp] theorem nextCycle_flight : s.nextCycle.flight = s.flight := rfl
@[simp] theorem nextCycle_inputs : s.nextCycle.inputs = s.script.headD {} := rfl
@[simp] theorem nextCycle_script : s.nextCycle.script = s.script.tail := rfl
@[simp] theorem nextCycle_tick : s.nextCycle.tick = s.tick + 1 := rfl

@[simp] theorem withFetchWord_busy : (s.withFetchWord nbits w).busy = false := rfl
@[simp] theorem withFetchWord_flight : (s.withFetchWord nbits w).flight = none := rfl
@[simp] theorem withFetchWord_rst : (s.withFetchWord nbits w).inputs.rst = false := rfl
@[simp] theorem withFetchWord_offer : (s.withFetchWord nbits w).inputs.offer = some (tableOffer nbits w) := rfl
@[simp] theorem withFetchWord_rspReady : (s.withFetchWord nbits w).inputs.rspReady = s.inputs.rspReady := rfl
@[simp] theorem withFetchWord_script : (s.withFetchWord nbits w).script = s.script := rfl
@[simp] theorem withFetchWord_tick : (s.withFetchWord nbits w).tick = s.tick := rfl

@[simp] theorem reset_busy : State.reset.busy = false := rfl
@[simp] theorem reset_flight : State.reset.flight = none := rfl
@[simp] theorem reset_inputs : State.reset.inputs = {} := rfl
@[simp] theorem reset_script : State.reset.script = [] := rfl
@[simp] theorem reset_tick : State.reset.tick = 0 := rfl

end Sys2Proof.Machine
end

