-- ==== Sys2Proof/Laws/Ops.lean ====
section
/-!
SUPPORT. What each shared operation of the machine can do, said once.
-/

namespace Sys2Proof.Machine

/-! ### Result forms: each is a success, the no-result form is none -/

@[simp] theorem rspBits_ok (bits : List Bool) : (rspBits bits).ok = true := rfl
@[simp] theorem rspBytes_ok (bytes : List Byte) : (rspBytes bytes).ok = true := rfl
@[simp] theorem rspBytesResidue_ok (r : List Byte × List Bool) : (rspBytesResidue r).ok = true := rfl
@[simp] theorem rspObject_ok (o : DataObject) : (rspObject o).ok = true := rfl
@[simp] theorem rspNibble_ok (c : Nibble) : (rspNibble c).ok = true := rfl
@[simp] theorem rspName_ok (m : CmdName) : (rspName m).ok = true := rfl
@[simp] theorem rspByte_ok (b : Byte) : (rspByte b).ok = true := rfl
@[simp] theorem rspBool_ok (b : Bool) : (rspBool b).ok = true := rfl
@[simp] theorem rspNoResult_ok (e : Reason) : (rspNoResult e).ok = false := rfl

/-- The response has `ok = 1` exactly when the operation has a result (R180). -/
theorem reply_succeeds {α : Type} (s : State) (form : α → Rsp) (hform : ∀ v, (form v).ok = true)
    (x : Except Reason α) : ∃ r, s.reply form x = s.answer r ∧ (r.ok = true ↔ ∃ v, x = .ok v) := by
  cases x with
  | ok v => exact ⟨form v, rfl, by simp [hform]⟩
  | error e => exact ⟨rspNoResult e, rfl, by simp⟩

/-! ### Replies -/

@[simp] theorem reply_ok {α : Type} (s : State) (form : α → Rsp) (v : α) :
    s.reply form (.ok v) = s.answer (form v) := rfl

@[simp] theorem reply_error {α : Type} (s : State) (form : α → Rsp) (e : Reason) :
    s.reply form (.error e) = s.answer (rspNoResult e) := rfl

/-- A reply answers the request, with the form of the result or with the no-result response of the outcome. -/
theorem reply_cases {α : Type} (s : State) (form : α → Rsp) (x : Except Reason α) :
    (∃ v, x = .ok v ∧ s.reply form x = s.answer (form v)) ∨
    (∃ e, x = .error e ∧ s.reply form x = s.answer (rspNoResult e)) := by
  cases x with
  | ok v => exact .inl ⟨v, rfl, rfl⟩
  | error e => exact .inr ⟨e, rfl, rfl⟩

/-- Two answers from one state are equal exactly when the responses are. -/
@[simp] theorem answer_inj (s : State) (r r' : Rsp) : s.answer r = s.answer r' ↔ r = r' := by
  simp [State.answer]

@[simp] theorem next_inj {s t : State} :
    (Host.Outcome.next s : Host.Outcome State Fault Refusal) = .next t ↔ s = t :=
  ⟨fun h => by injection h, congrArg _⟩

/-! ### The response channel -/

@[simp] theorem offered_none {s : State} (h : s.flight = none) : s.offered = none := by
  simp [State.offered, h]

/-- A response is offered exactly when the transaction in flight has no latency left. -/
theorem offered_eq_some {s : State} {r : Rsp} :
    s.offered = some r ↔ s.flight = some { wait := 0, rsp := r } := by
  unfold State.offered
  cases h : s.flight with
  | none => simp
  | some f =>
    cases f with
    | mk wait rsp => by_cases hw : wait = 0 <;> simp [hw]

/-- What a cycle of a busy block does: nothing without a transaction, the latency runs down, the response is held, or
it is taken. -/
theorem serve_cases (s : State) :
    (s.flight = none ∧ s.serve = s) ∨
    (∃ w r, s.flight = some { wait := w + 1, rsp := r } ∧ s.serve = { s with flight := some { wait := w, rsp := r } }) ∨
    (∃ r, s.flight = some { wait := 0, rsp := r } ∧ s.inputs.rspReady = false ∧ s.serve = s) ∨
    (∃ r, s.flight = some { wait := 0, rsp := r } ∧ s.inputs.rspReady = true ∧
      s.serve = { s with busy := false, flight := none }) := by
  cases h : s.flight with
  | none => exact .inl ⟨rfl, by simp [State.serve, h]⟩
  | some f =>
    obtain ⟨wait, rsp⟩ := f
    cases wait with
    | succ w => exact .inr (.inl ⟨w, rsp, rfl, by simp [State.serve, h]⟩)
    | zero =>
      cases hr : s.inputs.rspReady with
      | false => exact .inr (.inr (.inl ⟨rsp, rfl, rfl, by simp [State.serve, h, hr]⟩))
      | true => exact .inr (.inr (.inr ⟨rsp, rfl, rfl, by simp [State.serve, h, hr]⟩))

@[simp] theorem serve_inputs (s : State) : s.serve.inputs = s.inputs := by
  obtain ⟨_, h⟩ | ⟨_, _, _, h⟩ | ⟨_, _, _, h⟩ | ⟨_, _, _, h⟩ := serve_cases s <;> rw [h]

@[simp] theorem serve_script (s : State) : s.serve.script = s.script := by
  obtain ⟨_, h⟩ | ⟨_, _, _, h⟩ | ⟨_, _, _, h⟩ | ⟨_, _, _, h⟩ := serve_cases s <;> rw [h]

@[simp] theorem serve_tick (s : State) : s.serve.tick = s.tick := by
  obtain ⟨_, h⟩ | ⟨_, _, _, h⟩ | ⟨_, _, _, h⟩ | ⟨_, _, _, h⟩ := serve_cases s <;> rw [h]

/-! ### Fetch -/

theorem fetch_resetting {s : State} (h : s.inputs.rst = true) : fetch s = .resetting := by
  simp [fetch, h]

theorem fetch_serving {s : State} (h : s.inputs.rst = false) (hb : s.busy = true) : fetch s = .serving := by
  simp [fetch, h, hb]

theorem fetch_quiet {s : State} (h : s.inputs.rst = false) (hb : s.busy = false) (ho : s.inputs.offer = none) :
    fetch s = .quiet := by
  simp [fetch, h, hb, ho]

/-- The phase of a cycle that takes a word is the decoder's answer to it. -/
theorem fetch_taking {s : State} {w : Offer} (h : s.inputs.rst = false) (hb : s.busy = false)
    (ho : s.inputs.offer = some w) :
    fetch s = match decode w with
      | .ok i => .run i
      | .error (.unmappedCode f) => .unmapped f
      | .error (.sequenceTooLong n) => .overlong n := by
  rcases hd : decode w with (_ | _) | _ <;> simp [fetch, h, hb, ho, hd]

/-- Everything a cycle can do, by its phase. -/
theorem fetch_cases (s : State) :
    (s.inputs.rst = true ∧ fetch s = .resetting) ∨
    (s.inputs.rst = false ∧ s.busy = true ∧ fetch s = .serving) ∨
    (s.inputs.rst = false ∧ s.busy = false ∧ s.inputs.offer = none ∧ fetch s = .quiet) ∨
    (∃ w i, s.inputs.rst = false ∧ s.busy = false ∧ s.inputs.offer = some w ∧ decode w = .ok i ∧
      fetch s = .run i) ∨
    (∃ w f, s.inputs.rst = false ∧ s.busy = false ∧ s.inputs.offer = some w ∧
      decode w = .error (.unmappedCode f) ∧ fetch s = .unmapped f) ∨
    (∃ w n, s.inputs.rst = false ∧ s.busy = false ∧ s.inputs.offer = some w ∧
      decode w = .error (.sequenceTooLong n) ∧ fetch s = .overlong n) := by
  cases h : s.inputs.rst with
  | true => exact .inl ⟨rfl, fetch_resetting h⟩
  | false =>
    cases hb : s.busy with
    | true => exact .inr (.inl ⟨rfl, rfl, fetch_serving h hb⟩)
    | false =>
      cases ho : s.inputs.offer with
      | none => exact .inr (.inr (.inl ⟨rfl, rfl, rfl, fetch_quiet h hb ho⟩))
      | some w =>
        have ht := fetch_taking h hb ho
        cases hd : decode w with
        | ok i => exact .inr (.inr (.inr (.inl ⟨w, i, rfl, rfl, rfl, hd, by simp [ht, hd]⟩)))
        | error e =>
          cases e with
          | unmappedCode f => exact .inr (.inr (.inr (.inr (.inl ⟨w, f, rfl, rfl, rfl, hd, by simp [ht, hd]⟩))))
          | sequenceTooLong n => exact .inr (.inr (.inr (.inr (.inr ⟨w, n, rfl, rfl, rfl, hd, by simp [ht, hd]⟩))))

/-! ### The step, by phase -/

theorem step_resetting {s : State} (h : fetch s = .resetting) : step s = .next s.applyReset.nextCycle := by
  simp [step, h]

theorem step_serving {s : State} (h : fetch s = .serving) : step s = .next s.serve.nextCycle := by
  simp [step, h]

theorem step_quiet {s : State} (h : fetch s = .quiet) : step s = .next s.nextCycle := by
  simp [step, h]

theorem step_unmapped {s : State} {f : WireFrame} (h : fetch s = .unmapped f) :
    step s = .next (rejectFrame f s).nextCycle := by
  simp [step, h]

theorem step_overlong {s : State} {n : Nat} (h : fetch s = .overlong n) :
    step s = .refused (.sequenceTooLong n) := by
  simp [step, h]

theorem step_run {s t : State} {i : Instr} (h : fetch s = .run i) (he : exec i s = .next t) :
    step s = .next t.nextCycle := by
  simp [step, h, he]

end Sys2Proof.Machine
end

