-- ==== Sys2Proof/Laws/Codec.lean ====
section
/-!
SUPPORT. The small lemmas of the codec functions: the equations of the bit grouping, the checksum step, the command
table entry by entry, and the two outcomes of FDEC and FENC.
-/

namespace Sys2Proof.Machine

/-! ### BitStream Codec -/

@[simp] theorem bitsToBytes_eight (c0 c1 c2 c3 c4 c5 c6 c7 : Bool) (rest : List Bool) :
    bitsToBytes (c0 :: c1 :: c2 :: c3 :: c4 :: c5 :: c6 :: c7 :: rest) =
      (byteOfBits c0 c1 c2 c3 c4 c5 c6 c7 :: (bitsToBytes rest).1, (bitsToBytes rest).2) := rfl

/-- Fewer than eight bits are all residue (R100). -/
theorem bitsToBytes_short (bits : List Bool) (h : bits.length < 8) : bitsToBytes bits = ([], bits) := by
  unfold bitsToBytes
  split
  · simp at h; omega
  · rfl

@[simp] theorem bytesToBits_nil : bytesToBits [] = [] := rfl

@[simp] theorem bytesToBits_cons (b : Byte) (bs : List Byte) :
    bytesToBits (b :: bs) = bitsOfByte b ++ bytesToBits bs := rfl

@[simp] theorem bitsOfByte_length (b : Byte) : (bitsOfByte b).length = 8 := rfl

/-- The byte of a byte's own wire bits is the byte (R42). -/
theorem byteOfBits_bitsOfByte : ∀ b : Byte,
    byteOfBits (b.getLsbD 0) (b.getLsbD 1) (b.getLsbD 2) (b.getLsbD 3)
      (b.getLsbD 4) (b.getLsbD 5) (b.getLsbD 6) (b.getLsbD 7) = b := by
  decide

/-- The wire bits of a byte made of eight bits are those bits (R42). -/
theorem bitsOfByte_byteOfBits : ∀ c0 c1 c2 c3 c4 c5 c6 c7 : Bool,
    bitsOfByte (byteOfBits c0 c1 c2 c3 c4 c5 c6 c7) = [c0, c1, c2, c3, c4, c5, c6, c7] := by
  decide

/-! ### Checksum Engine -/

/-- One step of the running subtraction is subtraction modulo 256 (R112, first sentence). -/
theorem csumStep_eq_sub (acc b : Byte) : csumStep acc b = acc - b := by
  apply BitVec.eq_of_toNat_eq
  have ha := acc.isLt
  have hb := b.isLt
  have h : (256#9 ||| acc.setWidth 9).toNat = 256 + acc.toNat := by revert acc; decide
  simp [csumStep, BitVec.toNat_sub]
  simp at h
  omega

@[simp] theorem csum_nil : csum [] = 0x01 := rfl

/-- The checksum of a sequence with one more byte (R110). -/
@[simp] theorem csum_append_singleton (bytes : List Byte) (b : Byte) :
    csum (bytes ++ [b]) = csum bytes - b := by
  simp [csum, csumStep_eq_sub]

/-! ### Command Map -/

@[simp] theorem nameForCode_up : nameForCode 0xC = .ok .up := rfl
@[simp] theorem nameForCode_down : nameForCode 0x1 = .ok .down := rfl
@[simp] theorem nameForCode_idle : nameForCode 0x5 = .ok .idle := rfl
@[simp] theorem nameForCode_confirm : nameForCode 0x4 = .ok .confirm := rfl
@[simp] theorem nameForCode_setLimit : nameForCode 0x2 = .ok .setLimit := rfl

@[simp] theorem codeForName_up : codeForName (some .up) = .ok 0xC := rfl
@[simp] theorem codeForName_down : codeForName (some .down) = .ok 0x1 := rfl
@[simp] theorem codeForName_idle : codeForName (some .idle) = .ok 0x5 := rfl
@[simp] theorem codeForName_confirm : codeForName (some .confirm) = .ok 0x4 := rfl
@[simp] theorem codeForName_setLimit : codeForName (some .setLimit) = .ok 0x2 := rfl
@[simp] theorem codeForName_none : codeForName none = .error .noMatch := rfl
@[simp] theorem codeForName_my : codeForName (some .my) = .error .noMatch := rfl
@[simp] theorem codeForName_deepUp : codeForName (some .deepUp) = .error .noMatch := rfl
@[simp] theorem codeForName_deepDown : codeForName (some .deepDown) = .error .noMatch := rfl
@[simp] theorem codeForName_other (k : Fin 7) : codeForName (some (.other k)) = .error .noMatch := rfl

/-! ### Frame Codec -/

/-- When FDEC gives an object: five bytes or more, verified, and a mapped code (R130). -/
theorem frameFromBytes_ok {bytes : List Byte} {d : DataObject} (h : frameFromBytes bytes = .ok d) :
    ∃ b0 b1 b2 b3 b4 rest name, bytes = b0 :: b1 :: b2 :: b3 :: b4 :: rest ∧ verifies bytes = true ∧
      nameForCode (highNibble b2) = .ok name ∧
      d = addMotion name b3 (frameObject (addressOfBytes b0 b1) (lowNibble b2) name) := by
  unfold frameFromBytes at h
  split at h
  · rename_i b0 b1 b2 b3 b4 rest
    split at h
    · rename_i hv
      unfold objectOfBytes at h
      cases hn : nameForCode (highNibble b2) with
      | error e => simp [hn] at h
      | ok name =>
        simp only [hn, Except.ok.injEq] at h
        exact ⟨b0, b1, b2, b3, b4, rest, name, rfl, hv, hn, h.symm⟩
    · cases h
  · cases h

/-- When FENC gives bytes: an address and a name of the table (R131). -/
theorem bytesFromFrame_ok {o : DataObject} {bytes : List Byte} (h : bytesFromFrame o = .ok bytes) :
    ∃ address code, o.address = some address ∧ codeForName (selectName o) = .ok code ∧
      bytes = payloadBytes address code (o.unit.getD 0) (isTilt o) ++
        [csum (payloadBytes address code (o.unit.getD 0) (isTilt o))] := by
  unfold bytesFromFrame at h
  cases ha : o.address with
  | none => simp [ha] at h
  | some address =>
    cases hc : codeForName (selectName o) with
    | error e => simp [ha, hc] at h
    | ok code =>
      simp only [ha, hc, Except.ok.injEq] at h
      exact ⟨address, code, rfl, rfl, h.symm⟩

/-- FENC's only failure (R183). -/
theorem bytesFromFrame_error {o : DataObject} {e : Reason} (h : bytesFromFrame o = .error e) :
    e = .unresolvableEncodeRequest := by
  unfold bytesFromFrame at h
  split at h
  · exact (Except.error.inj h).symm
  · split at h
    · exact (Except.error.inj h).symm
    · cases h

end Sys2Proof.Machine
end

