-- ==== Sys2Proof/Laws/Encoding.lean ====
section
/-!
SUPPORT. The small lemmas of the encodings: placed fields, nibbles and addresses, the fields of the 40-bit table
word, and its masks (spec/30_encoding.md R60, R67, R68, section 7).
-/

namespace Sys2Proof

/-- The bits of a placed field. -/
theorem getLsbD_place (n lo : Nat) {w : Nat} (v : BitVec w) (i : Nat) :
    (place n lo v).getLsbD i = (decide (i < n) && decide (lo ≤ i) && v.getLsbD (i - lo)) := by
  simp only [place, BitVec.getLsbD_shiftLeft, BitVec.getLsbD_setWidth]
  by_cases h1 : i < n
  · by_cases h2 : i < lo
    · simp [h1, h2]
    · have : i - lo < n := by omega
      simp [h1, h2, this]; omega
  · simp [h1]

/-! ### Nibbles and addresses -/

@[simp] theorem highNibble_byteOfNibbles (h l : Nibble) : highNibble (byteOfNibbles h l) = h := by
  ext i hi
  simp [highNibble, byteOfNibbles, place]
  interval_cases i <;> simp

@[simp] theorem lowNibble_byteOfNibbles (h l : Nibble) : lowNibble (byteOfNibbles h l) = l := by
  ext i hi
  simp [lowNibble, byteOfNibbles, place]
  interval_cases i <;> simp

@[simp] theorem byteOfNibbles_nibbles (b : Byte) : byteOfNibbles (highNibble b) (lowNibble b) = b := by
  ext i hi
  simp [lowNibble, highNibble, byteOfNibbles, place]
  interval_cases i <;> simp

@[simp] theorem addressOfBytes_extract (a : BitVec 16) :
    addressOfBytes (a.extractLsb' 8 8) (a.extractLsb' 0 8) = a := by
  ext i hi
  simp [addressOfBytes, place]
  interval_cases i <;> simp

@[simp] theorem extract_high_addressOfBytes (a b : Byte) : (addressOfBytes a b).extractLsb' 8 8 = a := by
  ext i hi
  simp [addressOfBytes, place]
  interval_cases i <;> simp

@[simp] theorem extract_low_addressOfBytes (a b : Byte) : (addressOfBytes a b).extractLsb' 0 8 = b := by
  ext i hi
  simp [addressOfBytes, place]
  interval_cases i <;> simp

/-! ### The 40-bit table word -/

/-- Bits 23:20 of the table word are the high nibble of byte 2, the command code (R60). -/
theorem word_code (f : WireFrame) : f.word.extractLsb' 20 4 = highNibble f.b2 := by
  obtain ⟨b0, b1, b2, b3, b4⟩ := f
  ext i hi
  simp only [WireFrame.word, highNibble, BitVec.getElem_extractLsb', BitVec.getLsbD_or, getLsbD_place]
  interval_cases i <;> simp [BitVec.getLsbD_of_ge]

/-- Bits 15:12 of the table word are the high nibble of byte 3, the tilt nibble (R60). -/
theorem word_tilt (f : WireFrame) : f.word.extractLsb' 12 4 = highNibble f.b3 := by
  obtain ⟨b0, b1, b2, b3, b4⟩ := f
  ext i hi
  simp only [WireFrame.word, highNibble, BitVec.getElem_extractLsb', BitVec.getLsbD_or, getLsbD_place]
  interval_cases i <;> simp [BitVec.getLsbD_of_ge]

/-- The mask of the full-travel rows keeps the command code alone. -/
theorem and_codeMask (w : BitVec 40) : w &&& 0x0000F00000 = place 40 20 (w.extractLsb' 20 4) := by
  have hm : ∀ i < 40, (0x0000F00000 : BitVec 40).getLsbD i = (decide (20 ≤ i) && decide (i < 24)) := by decide
  apply BitVec.eq_of_getLsbD_eq
  intro i hi
  rw [getLsbD_place, BitVec.getLsbD_and, hm i hi, BitVec.getLsbD_extractLsb']
  by_cases h : 20 ≤ i
  · rw [show 20 + (i - 20) = i by omega]
    by_cases h' : i < 24
    · simp [hi, h, h', show i - 20 < 4 by omega]
    · simp [h', show ¬ i - 20 < 4 by omega]
  · simp [h]

/-- The mask of the tilt rows keeps the command code and the tilt nibble. -/
theorem and_tiltMask (w : BitVec 40) :
    w &&& 0x0000F0F000 = place 40 20 (w.extractLsb' 20 4) ||| place 40 12 (w.extractLsb' 12 4) := by
  have hm : ∀ i < 40, (0x0000F0F000 : BitVec 40).getLsbD i =
      ((decide (20 ≤ i) && decide (i < 24)) || (decide (12 ≤ i) && decide (i < 16))) := by decide
  apply BitVec.eq_of_getLsbD_eq
  intro i hi
  rw [BitVec.getLsbD_or, getLsbD_place, getLsbD_place, BitVec.getLsbD_and, hm i hi, BitVec.getLsbD_extractLsb',
    BitVec.getLsbD_extractLsb']
  by_cases h : 20 ≤ i
  · rw [show 20 + (i - 20) = i by omega]
    by_cases h' : i < 24
    · simp [hi, h, h', show i - 20 < 4 by omega, show ¬ i < 16 by omega, show ¬ i - 12 < 4 by omega]
    · simp [h', show ¬ i - 20 < 4 by omega, show ¬ i < 16 by omega, show ¬ i - 12 < 4 by omega]
  · by_cases h12 : 12 ≤ i
    · rw [show 12 + (i - 12) = i by omega]
      by_cases h' : i < 16
      · simp [hi, h, h', h12, show i - 12 < 4 by omega]
      · simp [h, h', show ¬ i - 12 < 4 by omega]
    · simp [h, h12]

/-- A masked table word of given fields, by its code. -/
theorem frameOfFields_codeMask (address : BitVec 16) (code unit tilt unused : Nibble) (checksum : Byte) :
    (frameOfFields address code unit tilt unused checksum).word &&& 0x0000F00000 = place 40 20 code := by
  rw [and_codeMask, word_code]; simp [frameOfFields]

/-- A masked table word of given fields, by its code and tilt nibble. -/
theorem frameOfFields_tiltMask (address : BitVec 16) (code unit tilt unused : Nibble) (checksum : Byte) :
    (frameOfFields address code unit tilt unused checksum).word &&& 0x0000F0F000 =
      place 40 20 code ||| place 40 12 tilt := by
  rw [and_tiltMask, word_code, word_tilt]; simp [frameOfFields]

end Sys2Proof
end

