-- ==== Sys2Proof/Laws/PerInstr.lean ====
section
/-!
SUPPORT. The family `RowEncoding`: the encoding of an instruction lies in its own row of spec/opcode_table.json,
by the row's `match` and `mask` over the 40-bit word F for the WIRE40 rows, and by `req_op` for the REQ rows.
-/

namespace Sys2Proof.Laws.RowEncoding

/-- An offered word that is a bare frame matching a WIRE40 row. -/
def isFrameOf (mask pattern : BitVec 40) : Offer → Prop
  | .wire f => f.word &&& mask = pattern
  | .request _ => False

/-- An offered word that is a request with the select of a REQ row. -/
def isSelect (op : Nibble) : Offer → Prop
  | .wire _ => False
  | .request r => r.op = op

/-- The encoding of `i` lies in the row of its mnemonic, and an `UP` or `DOWN` that is well formed lies outside the
more specific tilt row. -/
def Statement (i : Instr) : Prop :=
  match i with
  | .upT _ _ _ _ => isFrameOf 0x0000F0F000 0x0000C01000 (encode i)
  | .downT _ _ _ _ => isFrameOf 0x0000F0F000 0x0000101000 (encode i)
  | .up _ _ _ _ _ => isFrameOf 0x0000F00000 0x0000C00000 (encode i) ∧
      (i.wellFormed = true → ¬ isFrameOf 0x0000F0F000 0x0000C01000 (encode i))
  | .down _ _ _ _ _ => isFrameOf 0x0000F00000 0x0000100000 (encode i) ∧
      (i.wellFormed = true → ¬ isFrameOf 0x0000F0F000 0x0000101000 (encode i))
  | .idle _ _ _ _ _ => isFrameOf 0x0000F00000 0x0000500000 (encode i)
  | .confirm _ _ _ _ _ => isFrameOf 0x0000F00000 0x0000400000 (encode i)
  | .setLimit _ _ _ _ _ => isFrameOf 0x0000F00000 0x0000200000 (encode i)
  | .reserved => isSelect 0x0 (encode i)
  | .b2by _ => isSelect 0x1 (encode i)
  | .by2b _ => isSelect 0x2 (encode i)
  | .csum _ => isSelect 0x3 (encode i)
  | .verify _ => isSelect 0x4 (encode i)
  | .cmdname _ => isSelect 0x5 (encode i)
  | .cmdcode _ => isSelect 0x6 (encode i)
  | .fdec _ => isSelect 0x7 (encode i)
  | .fenc _ => isSelect 0x8 (encode i)
  | .norm _ _ => isSelect 0x9 (encode i)
  | .rx _ _ => isSelect 0xA (encode i)
  | .tx _ _ => isSelect 0xB (encode i)
  | .rot _ _ => isSelect 0xC (encode i)
  | .tinv _ => isSelect 0xD (encode i)
  | .legacyAlias _ => isSelect 0xE (encode i)
  | .psyn _ => isSelect 0xF (encode i)

theorem upT (address : BitVec 16) (unit unused : Nibble) (checksum : Byte) :
    Statement (.upT address unit unused checksum) :=
  (frameOfFields_tiltMask address 0xC unit 0x1 unused checksum).trans (by decide)

theorem downT (address : BitVec 16) (unit unused : Nibble) (checksum : Byte) :
    Statement (.downT address unit unused checksum) :=
  (frameOfFields_tiltMask address 0x1 unit 0x1 unused checksum).trans (by decide)

theorem up (address : BitVec 16) (unit tilt unused : Nibble) (checksum : Byte) :
    Statement (.up address unit tilt unused checksum) := by
  refine ⟨(frameOfFields_codeMask address 0xC unit tilt unused checksum).trans (by decide), fun hw hm => ?_⟩
  have h : place 40 20 (0xC : Nibble) ||| place 40 12 tilt = place 40 20 (0xC : Nibble) ||| place 40 12 (1 : Nibble) :=
    (frameOfFields_tiltMask address 0xC unit tilt unused checksum).symm.trans (hm.trans (by decide))
  have hinj : ∀ t : Nibble, place 40 20 (0xC : Nibble) ||| place 40 12 t =
      place 40 20 (0xC : Nibble) ||| place 40 12 (1 : Nibble) → t = 1 := by decide
  simp [Instr.wellFormed, hinj tilt h] at hw

theorem down (address : BitVec 16) (unit tilt unused : Nibble) (checksum : Byte) :
    Statement (.down address unit tilt unused checksum) := by
  refine ⟨(frameOfFields_codeMask address 0x1 unit tilt unused checksum).trans (by decide), fun hw hm => ?_⟩
  have h : place 40 20 (0x1 : Nibble) ||| place 40 12 tilt = place 40 20 (0x1 : Nibble) ||| place 40 12 (1 : Nibble) :=
    (frameOfFields_tiltMask address 0x1 unit tilt unused checksum).symm.trans (hm.trans (by decide))
  have hinj : ∀ t : Nibble, place 40 20 (0x1 : Nibble) ||| place 40 12 t =
      place 40 20 (0x1 : Nibble) ||| place 40 12 (1 : Nibble) → t = 1 := by decide
  simp [Instr.wellFormed, hinj tilt h] at hw

theorem idle (address : BitVec 16) (unit tilt unused : Nibble) (checksum : Byte) :
    Statement (.idle address unit tilt unused checksum) :=
  (frameOfFields_codeMask address 0x5 unit tilt unused checksum).trans (by decide)

theorem confirm (address : BitVec 16) (unit tilt unused : Nibble) (checksum : Byte) :
    Statement (.confirm address unit tilt unused checksum) :=
  (frameOfFields_codeMask address 0x4 unit tilt unused checksum).trans (by decide)

theorem setLimit (address : BitVec 16) (unit tilt unused : Nibble) (checksum : Byte) :
    Statement (.setLimit address unit tilt unused checksum) :=
  (frameOfFields_codeMask address 0x2 unit tilt unused checksum).trans (by decide)

theorem reserved : Statement .reserved := rfl
theorem b2by (bits : List Bool) : Statement (.b2by bits) := rfl
theorem by2b (bytes : List Byte) : Statement (.by2b bytes) := rfl
theorem csum (bytes : List Byte) : Statement (.csum bytes) := rfl
theorem verify (bytes : List Byte) : Statement (.verify bytes) := rfl
theorem cmdname (code : Nibble) : Statement (.cmdname code) := rfl
theorem cmdcode (name : Option CmdName) : Statement (.cmdcode name) := rfl
theorem fdec (bytes : List Byte) : Statement (.fdec bytes) := rfl
theorem fenc (o : DataObject) : Statement (.fenc o) := rfl
theorem norm (o : DataObject) (ctl : Ctl) : Statement (.norm o ctl) := rfl
theorem rx (bits : List Bool) (ctl : Ctl) : Statement (.rx bits ctl) := rfl
theorem tx (o : DataObject) (ctl : Ctl) : Statement (.tx o ctl) := rfl
theorem rot (o : DataObject) (ctl : Ctl) : Statement (.rot o ctl) := rfl
theorem tinv (o : DataObject) : Statement (.tinv o) := rfl
theorem legacyAlias (o : DataObject) : Statement (.legacyAlias o) := rfl
theorem psyn (o : DataObject) : Statement (.psyn o) := rfl

end Sys2Proof.Laws.RowEncoding
end

