-- ==== Sys2Proof/Tests/Slice0.lean ====
section
/-!
SUPPORT. The model's own tests.  Expected values are those of spec/95_test_vectors.md (the vector's name stands in
the comment) or are written out by hand from the encoding tables of spec/30_encoding.md.
-/

namespace Sys2Proof.Tests

open Sys2Proof Sys2Proof.Machine

/-! ### Well-formedness refuses what it should -/

theorem test_wf_up_with_tilt_nibble : (Instr.up 5 0 1 0 0x3C).wellFormed = false := by decide
theorem test_wf_down_with_tilt_nibble : (Instr.down 5 0 1 0 0x3C).wellFormed = false := by decide
theorem test_wf_bits_too_long :
    (Instr.b2by (List.replicate (Config.maxBits + 1) true)).wellFormed = false := by
  simp [Instr.wellFormed, bitsFit]
theorem test_wf_bytes_too_long :
    (Instr.csum (List.replicate (Config.maxBytes + 1) 0)).wellFormed = false := by
  simp [Instr.wellFormed, bytesFit]
theorem test_wf_longest_bits : (Instr.b2by (List.replicate Config.maxBits true)).wellFormed = true := by
  simp [Instr.wellFormed, bitsFit]
theorem test_wf_longest_bytes : (Instr.fdec (List.replicate Config.maxBytes 0)).wellFormed = true := by
  simp [Instr.wellFormed, bytesFit]

/-! ### Decoding, one written-out word for each row: F = address, code, unit, tilt, unused, checksum (R60); the
select of R73 -/

-- 0000000000000101 1100 0000 0001 0000 00101100
theorem test_decode_upT : decodeTableWord 40 0b0000000000000101110000000001000000101100 =
    some (.upT 5 0 0 0x2C) := by decide
-- 1010101111001101 0001 0101 0001 1111 01010101 (FD2)
theorem test_decode_downT : decodeTableWord 40 0b1010101111001101000101010001111101010101 =
    some (.downT 0xABCD 5 0xF 0x55) := by decide
-- 0000000000000101 1100 0000 0000 0000 00111100
theorem test_decode_up : decodeTableWord 40 0b0000000000000101110000000000000000111100 =
    some (.up 5 0 0 0 0x3C) := by decide
-- 1010101111001101 0001 0101 0010 1111 01000101 (FD1)
theorem test_decode_down : decodeTableWord 40 0b1010101111001101000101010010111101000101 =
    some (.down 0xABCD 5 2 0xF 0x45) := by decide
-- 1111111111111111 0101 1111 0000 0000 10100100 (FR5)
theorem test_decode_idle : decodeTableWord 40 0b1111111111111111010111110000000010100100 =
    some (.idle 0xFFFF 15 0 0 0xA4) := by decide
-- 1010101111001101 0100 0101 0001 0000 00110100 (FD5)
theorem test_decode_confirm : decodeTableWord 40 0b1010101111001101010001010001000000110100 =
    some (.confirm 0xABCD 5 1 0 0x34) := by decide
-- 0001001000110100 0010 0111 0000 0000 10010100 (FR7)
theorem test_decode_setLimit : decodeTableWord 40 0b0001001000110100001001110000000010010100 =
    some (.setLimit 0x1234 7 0 0 0x94) := by decide
-- code 0x3 is in no row (R66, FD10)
theorem test_decode_unmapped : decodeTableWord 40 0xABCD350054 = none := by decide
theorem test_decode_reserved : decodeTableWord 8 0x0 = some .reserved := by decide
theorem test_decode_cmdname : decode (.request { op := 0b0101, nib := 0xC }) = .ok (.cmdname 0xC) := rfl
theorem test_decode_cmdcode : decode (.request { op := 0b0110, nib := 3 }) = .ok (.cmdcode (some .idle)) := rfl
theorem test_decode_fenc : decode (.request { op := 0b1000, obj := 0x00000008002C0001 }) =
    .ok (.fenc { address := some 5, unit := some 0, cmd := some .up }) := rfl
theorem test_decode_norm : decode (.request { op := 0b1001, obj := 0x36, ctl := 0x9 }) =
    .ok (.norm { cmd := some .my, state := some .idle } ⟨true, false, .inbound, true⟩) := rfl
theorem test_decode_tx : decode (.request { op := 0b1011, obj := 0x0000005D5E6D0000, ctl := 0x2 }) =
    .ok (.tx { address := some 0xABCD, unit := some 5, tiltUp := true } ⟨false, true, .inbound, false⟩) := rfl
theorem test_decode_rot : decode (.request { op := 0b1100, obj := 0x1, ctl := 0xB }) =
    .ok (.rot { cmd := some .up } ⟨true, true, .inbound, true⟩) := rfl
theorem test_decode_tinv : decode (.request { op := 0b1101, obj := 0x0000000000022000 }) =
    .ok (.tinv { tilt := some .down, tiltDown := true }) := rfl
theorem test_decode_legacyAlias : decode (.request { op := 0b1110, obj := 0x36 }) =
    .ok (.legacyAlias { cmd := some .my, state := some .idle }) := rfl
-- pad and the value bits of absent fields are ignored (R71)
theorem test_decode_psyn : decode (.request { op := 0b1111, obj := 0xFFFFFAF3FFF80020 }) =
    .ok (.psyn { state := some .down }) := rfl

/-! The sequence of `[0xAB, 0xCD]` is the word 0xCDAB (R75); MAXBYTES is open, at least 5. -/

theorem two_le_maxBytes : 2 ≤ Config.maxBytes := by simp [Config.maxBytes]
theorem ten_le_maxBits : 10 ≤ Config.maxBits := by simp [Config.maxBits, Config.maxBytes]; omega

theorem test_decode_b2by : decode (.request { op := 0b0001, n := 10, seq := 0x2FF }) =
    .ok (.b2by [true, true, true, true, true, true, true, true, false, true]) := by
  simp only [decode, decodeRequest, withBits, ten_le_maxBits, if_true]; rfl
theorem test_decode_by2b : decode (.request { op := 0b0010, n := 2, seq := 0xFFCDAB }) =
    .ok (.by2b [0xAB, 0xCD]) := by
  simp only [decode, decodeRequest, withBytes, two_le_maxBytes, if_true]; rfl
theorem test_decode_csum : decode (.request { op := 0b0011, n := 2, seq := 0xCDAB }) = .ok (.csum [0xAB, 0xCD]) := by
  simp only [decode, decodeRequest, withBytes, two_le_maxBytes, if_true]; rfl
theorem test_decode_verify : decode (.request { op := 0b0100, n := 2, seq := 0xCDAB }) =
    .ok (.verify [0xAB, 0xCD]) := by
  simp only [decode, decodeRequest, withBytes, two_le_maxBytes, if_true]; rfl
theorem test_decode_fdec : decode (.request { op := 0b0111, n := 2, seq := 0xCDAB }) = .ok (.fdec [0xAB, 0xCD]) := by
  simp only [decode, decodeRequest, withBytes, two_le_maxBytes, if_true]; rfl
theorem test_decode_rx : decode (.request { op := 0b1010, n := 10, seq := 0x2FF, ctl := 0x4 }) =
    .ok (.rx [true, true, true, true, true, true, true, true, false, true] ⟨false, false, .outbound, false⟩) := by
  simp only [decode, decodeRequest, withBits, ten_le_maxBits, if_true]; rfl

/-! ### One instruction from the reset state, by its response ports -/

/-- The response of an instruction taken in the reset state. -/
def rspOf (i : Instr) : Option Rsp :=
  match exec i State.reset with
  | .next t => t.flight.map (·.rsp)
  | _ => none

/-- A response that carries an object word. -/
def objectWord (w : BitVec 64) : Option Rsp := some { zeroRsp with ok := true, obj := w }

/-- A response that carries a sequence. -/
def sequenceWord (n seq : Nat) : Option Rsp := some { zeroRsp with ok := true, n := n, seq := seq }

-- section 9: the item 7 result; its checksum flipped gives MalformedPayload
theorem test_upT : rspOf (.upT 5 0 0 0x2C) = objectWord 0x00028708002D1001 := by decide
theorem test_upT_bad_checksum : rspOf (.upT 5 0 0 0x2D) = some (noResult 1) := by decide
-- FR3 decoded
theorem test_downT : rspOf (.downT 0xABCD 5 0 0x64) = objectWord 0x55E6AD5D5E6E2002 := by decide
-- the item 6 result
theorem test_up : rspOf (.up 5 0 0 0 0x3C) = objectWord 0x00028708002C0111 := by decide
-- FD1: tilt nibble 2 is full travel
theorem test_down : rspOf (.down 0xABCD 5 2 0xF 0x45) = objectWord 0x55E6AD5D5E6C0222 := by decide
-- FD7, the least id
theorem test_idle : rspOf (.idle 0 0 0 0 0xB1) = objectWord 0x0000070800040033 := by decide
-- FD5: byte 3 is not looked at
theorem test_confirm : rspOf (.confirm 0xABCD 5 1 0 0x34) = objectWord 0x55E6AD5D5E6C0004 := by decide
-- FD6
theorem test_setLimit : rspOf (.setLimit 0xABCD 5 0 0 0x64) = objectWord 0x55E6AD5D5E6C0005 := by decide
-- P4 step 4
theorem test_reserved : rspOf .reserved = some (noResult 5) := by decide
-- BS8 with its interface words
theorem test_b2by : rspOf (.b2by [true, true, true, true, true, true, true, true, false, true]) =
    some { zeroRsp with ok := true, n := 1, seq := 0xFF, rn := 2, res := 0b10 } := by decide
-- BS6
theorem test_b2by_short : rspOf (.b2by [true, false, true]) =
    some { zeroRsp with ok := true, rn := 3, res := 0b101 } := by decide
-- BS17
theorem test_by2b : rspOf (.by2b [0xAB, 0xCD, 0x15, 0x10, 0x64]) = sequenceWord 40 0x641015CDAB := by decide
-- CS9, CS4
theorem test_csum : rspOf (.csum [0x12, 0x34, 0x56, 0x78]) = some { zeroRsp with ok := true, byte := 0xED } := by
  decide
theorem test_csum_borrow : rspOf (.csum [0x02]) = some { zeroRsp with ok := true, byte := 0xFF } := by decide
-- VF2, VF7
theorem test_verify_guard : rspOf (.verify [0x01]) = some { zeroRsp with ok := true, bool := false } := by decide
theorem test_verify : rspOf (.verify [0x12, 0x34, 0x56, 0x78, 0xED]) =
    some { zeroRsp with ok := true, bool := true } := by decide
-- P6
theorem test_cmdname : rspOf (.cmdname 0xC) = some { zeroRsp with ok := true, nib := 1 } := by decide
theorem test_cmdname_no_match : rspOf (.cmdname 0x3) = some (noResult 4) := by decide
theorem test_cmdcode : rspOf (.cmdcode (some .idle)) = some { zeroRsp with ok := true, nib := 0x5 } := by decide
theorem test_cmdcode_my : rspOf (.cmdcode (some .my)) = some (noResult 4) := by decide
-- FD9: six bytes; FD14: wrong checksum and unmapped code
theorem test_fdec : rspOf (.fdec [0xAB, 0xCD, 0xC5, 0x00, 0x99, 0x2B]) = objectWord 0x55E6AD5D5E6C0111 := by decide
theorem test_fdec_checksum_first : rspOf (.fdec [0x00, 0x05, 0x30, 0x00, 0x00]) = some (noResult 1) := by decide
-- FE6: a tilt flag beats cmd and state; FE1: no fallback from an unmapped cmd
theorem test_fenc :
    rspOf (.fenc { address := some 1, unit := some 1, tiltDown := true, cmd := some .up, state := some .idle }) =
      sequenceWord 5 0xDF10110100 := by decide
theorem test_fenc_my :
    rspOf (.fenc { address := some 0x1234, unit := some 7, cmd := some .my, state := some .idle }) =
      some (noResult 3) := by decide
-- NM11, NM6
theorem test_norm_order : rspOf (.norm { tiltUp := true, tiltDown := true } ⟨true, false, .inbound, true⟩) =
    objectWord 0x0000000000032000 := by decide
theorem test_norm_both : rspOf (.norm { cmd := some .up, tilt := some .up, tiltUp := true }
    ⟨true, true, .inbound, false⟩) = objectWord 0x0000000000011002 := by decide
-- RX2 and P4 step 1
theorem test_rx_rotated : rspOf (.rx (bitsOfVector 40 0x3C00C00500) ⟨true, false, .inbound, false⟩) =
    objectWord 0x00028708002C0222 := by decide
theorem test_rx_residue : rspOf (.rx (bitsOfVector 41 0x3C00C00500) ⟨false, false, .inbound, false⟩) =
    some (noResult 1) := by decide
-- TX1, TX8
theorem test_tx_my : rspOf (.tx { address := some 0x1234, unit := some 7, cmd := some .my, state := some .idle }
    ⟨false, false, .inbound, false⟩) = sequenceWord 40 0x6400573412 := by decide
theorem test_tx_inverted : rspOf (.tx { address := some 0xABCD, unit := some 5, tiltUp := true }
    ⟨false, true, .inbound, false⟩) = sequenceWord 40 0x641015CDAB := by decide
-- RT3, RT4
theorem test_rot_outbound : rspOf (.rot { cmd := some .deepUp } ⟨false, false, .outbound, false⟩) =
    objectWord 0x8 := by decide
-- RT4 and RT1, which are given without `rot180`, with it 1 and 0 (R151)
theorem test_rot_inbound : rspOf (.rot { cmd := some .deepUp } ⟨true, false, .inbound, false⟩) = objectWord 0x7 ∧
    rspOf (.rot { cmd := some .up, state := some .up, direction := some .up } ⟨false, false, .inbound, false⟩) =
      objectWord 0x222 := by decide
-- TI2
theorem test_tinv : rspOf (.tinv { cmd := some .up, tilt := some .up, tiltUp := true }) =
    objectWord 0x0000000000022001 := by decide
-- AL3
theorem test_legacyAlias : rspOf (.legacyAlias { cmd := some .my, state := some .up, direction := some .up }) =
    objectWord 0x0000000000000130 := by decide
-- PS6, PS3
theorem test_psyn :
    rspOf (.psyn { state := some .up, direction := some .down, tiltUp := true, tilt := some .down }) =
      objectWord 0x0000000000011110 := by decide
theorem test_psyn_idle : rspOf (.psyn { state := some .idle, direction := some .up }) =
    objectWord 0x0000000000000130 := by decide

/-! ### Every statement with hypotheses has states and operands that meet them -/

/-- A ready block to which `w` is offered. -/
def ready (w : Offer) : State := { State.reset with inputs := { offer := some w } }

/-- A busy block whose response `r` is offered. -/
def offering (r : Rsp) (rspReady : Bool) : State :=
  { State.reset with busy := true, flight := some { wait := 0, rsp := r }, inputs := { rspReady := rspReady } }

/-- The frame of FD10: a right checksum and the unmapped code 0x3. -/
def unmappedFrame : WireFrame := { b0 := 0xAB, b1 := 0xCD, b2 := 0x35, b3 := 0x00, b4 := 0x54 }

/-- The object of §8 item 8 with its address. -/
def myObject : DataObject := { address := some 0x1234, unit := some 7, cmd := some .my, state := some .idle }

/-- `Ctl` with every bit 0. -/
def plainCtl : Ctl := ⟨false, false, .inbound, false⟩

theorem witness_EncodedInstructionDecodesBack : (Instr.up 5 0 0 0 0x3C).wellFormed = true := by decide
theorem witness_DecodedFrameEncodesBack :
    decode (.wire { b0 := 0x00, b1 := 0x05, b2 := 0xC0, b3 := 0x10, b4 := 0x2C }) = .ok (.upT 5 0 0 0x2C) := rfl
theorem witness_RequestSelectsItsOperation : Config.maxBits ≤ Config.maxBits ∧ 5 ≤ Config.maxBytes := by
  simp [Config.maxBytes]
theorem witness_SequenceVectorsCarryElementsByIndex :
    (((0x1 : Nibble) = 0x1 ∨ (0x1 : Nibble) = 0xA) ∧ Config.maxBits < Config.maxBits + 1) ∧
    ((0x7 : Nibble) = 0x7 ∧ Config.maxBytes < Config.maxBytes + 1) := by simp
theorem witness_StepRunsTheDecodedInstruction :
    (ready (.request { op := 0x5, nib := 0xC })).takes (.request { op := 0x5, nib := 0xC }) ∧
    decode (.request { op := 0x5, nib := 0xC }) = .ok (.cmdname 0xC) := ⟨⟨rfl, rfl, rfl⟩, rfl⟩
theorem witness_OverlongSequenceIsRefused_bits :
    (ready (.request { op := 0xA, n := Config.maxBits + 1 })).takes (.request { op := 0xA, n := Config.maxBits + 1 }) ∧
    Config.maxBits < Config.maxBits + 1 := ⟨⟨rfl, rfl, rfl⟩, Nat.lt_succ_self _⟩
theorem witness_OverlongSequenceIsRefused_bytes :
    (ready (.request { op := 0x7, n := Config.maxBytes + 1 })).takes
      (.request { op := 0x7, n := Config.maxBytes + 1 }) ∧
    Config.maxBytes < Config.maxBytes + 1 := ⟨⟨rfl, rfl, rfl⟩, Nat.lt_succ_self _⟩
theorem witness_UnmappedBareFrameIsAnswered :
    (ready (.wire unmappedFrame)).takes (.wire unmappedFrame) ∧ verifies unmappedFrame.bytes = true ∧
    highNibble unmappedFrame.b2 ∉ [(0xC : Nibble), 0x1, 0x5, 0x4, 0x2] :=
  ⟨⟨rfl, rfl, rfl⟩, by decide, by decide⟩
theorem witness_BusyBlockTakesNoRequest : (offering (noResult 4) false).busy = true := rfl
theorem witness_OfferedResponseIsHeldUntilTaken_held :
    (offering (noResult 4) false).busy = true ∧ (offering (noResult 4) false).inputs.rst = false ∧
    (offering (noResult 4) false).offered = some (noResult 4) ∧
    (offering (noResult 4) false).inputs.rspReady = false := ⟨rfl, rfl, rfl, rfl⟩
theorem witness_OfferedResponseIsHeldUntilTaken_taken :
    (offering (noResult 4) true).busy = true ∧ (offering (noResult 4) true).inputs.rst = false ∧
    (offering (noResult 4) true).offered = some (noResult 4) ∧
    (offering (noResult 4) true).inputs.rspReady = true := ⟨rfl, rfl, rfl, rfl⟩
theorem witness_TakenRequestIsAnswered :
    (ready (.request { op := 0x0 })).takes (.request { op := 0x0 }) ∧
    decode (.request { op := 0x0 }) = .ok .reserved ∧
    ∀ p ∈ (ready (.request { op := 0x0 })).script.take (Config.lat 0), p.rst = false :=
  ⟨⟨rfl, rfl, rfl⟩, rfl, by simp [ready, State.reset]⟩
theorem witness_TakenRequestIsAnswered_unmapped :
    (ready (.wire unmappedFrame)).takes (.wire unmappedFrame) ∧
    decode (.wire unmappedFrame) = .error (.unmappedCode unmappedFrame) ∧ verifies unmappedFrame.bytes = true :=
  ⟨⟨rfl, rfl, rfl⟩, rfl, by decide⟩
theorem witness_ResetAbandonsTheTransaction :
    ({ offering (noResult 4) true with inputs := { rst := true } } : State).inputs.rst = true := rfl
theorem witness_QuietCycleChangesNothing :
    State.reset.inputs.rst = false ∧ State.reset.busy = false ∧ State.reset.inputs.offer = none := ⟨rfl, rfl, rfl⟩
theorem witness_EveryStepKeepsTheHandshakeInvariant :
    (ready (.request { op := 0x5, nib := 0x3 })).Inv ∧
    step (ready (.request { op := 0x5, nib := 0x3 })) =
      .next ((ready (.request { op := 0x5, nib := 0x3 })).answer (noResult 4)).nextCycle :=
  ⟨⟨rfl, fun _ h => nomatch h⟩, rfl⟩
theorem witness_InstructionsTouchOnlyTheTransaction :
    exec .reserved State.reset = .next (State.reset.answer (noResult 5)) := rfl
theorem witness_ResponseDependsOnTheRequestAlone :
    (ready (.request { op := 0x0 })).takes (.request { op := 0x0 }) ∧
    ({ ready (.request { op := 0x0 }) with tick := 7 } : State).takes (.request { op := 0x0 }) ∧
    step (ready (.request { op := 0x0 })) =
      .next ((ready (.request { op := 0x0 })).answer (noResult 5)).nextCycle :=
  ⟨⟨rfl, rfl, rfl⟩, ⟨rfl, rfl, rfl⟩, rfl⟩
theorem witness_NineOperationsAlwaysSucceed :
    exec (.cmdname 0x3) State.reset = .next (State.reset.answer (noResult 4)) ∧ (noResult 4).ok = false := ⟨rfl, rfl⟩
theorem witness_requests_at_the_bounds :
    ({ op := 0x1, n := Config.maxBits } : Request).n ≤ Config.maxBits ∧
    ({ op := 0x3, n := Config.maxBytes } : Request).n ≤ Config.maxBytes := ⟨Nat.le_refl _, Nat.le_refl _⟩
theorem witness_VerifyDetectsEverySingleBitFlip : ([0x00] : List Byte) ≠ [] := by decide
theorem witness_CmdnameLooksUpTheCode :
    5 ≤ unmappedFrame.bytes.length ∧ verifies unmappedFrame.bytes = true ∧
    exec (.cmdname (highNibble (unmappedFrame.bytes.getD 2 0))) State.reset =
      .next (State.reset.answer (noResult 4)) := ⟨by decide, by decide, rfl⟩
theorem witness_CmdcodeLooksUpTheName :
    myObject.tiltUp = false ∧ myObject.tiltDown = false ∧
    exec (.cmdcode (if myObject.cmd.isSome then myObject.cmd else myObject.state)) State.reset =
      .next (State.reset.answer (noResult 4)) := ⟨rfl, rfl, rfl⟩
theorem witness_DecodedFrameReencodesCanonically :
    frameFromBytes [0xAB, 0xCD, 0x15, 0x2F, 0x45] =
      .ok { address := some 0xABCD, unit := some 5, group := some false, cmd := some .down, state := some .down,
            direction := some .down, id := some 0xABCD5 } := rfl
theorem witness_TravelAndTiltAreExclusive :
    (∃ d, frameFromBytes [0x00, 0x05, 0xC0, 0x10, 0x2C] = .ok d ∧ d.tiltUp = true) ∧
    (({ tiltDown := true, cmd := some .up } : DataObject).tiltUp ||
      ({ tiltDown := true, cmd := some .up } : DataObject).tiltDown) = true := ⟨⟨_, rfl, rfl⟩, rfl⟩
theorem witness_FrameRowsAnswerAsFdec :
    (Instr.up 5 0 0 0 0x3C).wellFormed = true ∧
    encode (.up 5 0 0 0 0x3C) = .wire { b0 := 0x00, b1 := 0x05, b2 := 0xC0, b3 := 0x00, b4 := 0x3C } :=
  ⟨by decide, by decide⟩
theorem witness_FrameRowsGiveTheirObjects :
    (0 : Nibble) ≠ 1 ∧ (0x00 + 0x05 + 0xC0 + 0x00 + 0x3C) % 256 = 1 := by decide
theorem witness_RotationAndInversionAreInvolutions :
    (⟨true, true, .outbound, false⟩ : Ctl).pairing = false ∧
    ({ cmd := some .deepUp } : DataObject).cmd ≠ some .my := by decide
theorem witness_NormalizerStepsCommute :
    ¬ (({ tiltUp := true } : DataObject).tiltUp = true ∧ ({ tiltUp := true } : DataObject).tiltDown = true) := by decide
theorem witness_NormalizerKeepsIdentityFields :
    ({ cmd := some (.other 6), state := some (.other 0), direction := some (.other 1), tilt := some (.other 2) } :
      DataObject).cmd = some (.other 6) := rfl
theorem witness_RxChainsTheInboundStages :
    (List.replicate 41 false).length % 8 ≠ 0 ∧ (List.replicate 32 false).length < 40 := by decide
theorem witness_WireCarriesTheFrameUnchanged :
    transmit { address := some 5, unit := some 0, cmd := some .up } plainCtl = .ok (bitsOfVector 40 0x3C00C00500) := rfl
theorem witness_SettingsCancelOverTheWire_rotated :
    (⟨true, false, .inbound, false⟩ : Ctl).pairing = false ∧
    transmit { address := some 0xABCD, unit := some 5, tiltUp := true } ⟨true, false, .inbound, false⟩ =
      .ok (bitsOfVector 40 0x641015CDAB) := ⟨rfl, rfl⟩
theorem witness_SettingsCancelOverTheWire_inverted :
    (⟨true, true, .inbound, false⟩ : Ctl).pairing = false ∧ myObject.tiltUp = false ∧ myObject.tiltDown = false ∧
    transmit myObject ⟨true, true, .inbound, false⟩ = .ok (bitsOfVector 40 0x6400573412) := ⟨rfl, rfl, rfl, rfl⟩
theorem witness_StagesChainThroughThePorts_residue :
    (List.replicate 41 false).length ≤ Config.maxBits ∧
    exec (.b2by (List.replicate 41 false)) State.reset =
      .next (State.reset.answer { zeroRsp with ok := true, n := 5, rn := 1 }) :=
  ⟨by simp [Config.maxBits, Config.maxBytes]; omega, rfl⟩
theorem witness_StagesChainThroughThePorts_stopped :
    (bitsToBytes (List.replicate 40 false)).2.length = 0 ∧
    rspOf (.fdec (bitsToBytes (List.replicate 40 false)).1) = some (noResult 1) ∧
    rspOf (.fenc {}) = some (noResult 3) := by decide
theorem witness_StagesChainThroughThePorts_result :
    (∃ d, receive (bitsOfVector 40 0x3C00C00500) plainCtl = .ok d) ∧
    (bitsOfVector 40 0x3C00C00500).length ≤ Config.maxBits ∧
    transmit myObject plainCtl = .ok (bitsOfVector 40 0x6400573412) := by
  refine ⟨⟨_, rfl⟩, ?_, rfl⟩
  have : (bitsOfVector 40 0x3C00C00500).length = 40 := by decide
  simp [this, Config.maxBits, Config.maxBytes]; omega
theorem witness_ControlBitsNotReadAreIgnored :
    (0x7 : Nibble).toNat ∉ [0x9, 0xA, 0xB, 0xC] ∧ (0x4 : BitVec 4).getLsbD 2 = (0xF : BitVec 4).getLsbD 2 := by decide
theorem witness_FirstCauseIsReported :
    verifies [0x00, 0x05, 0x30, 0x00, 0x00] = false ∧ (List.replicate 41 false).length % 8 ≠ 0 ∧
    exec (.fenc {}) State.reset = .next (State.reset.answer (noResult 3)) := ⟨by decide, by decide, rfl⟩

/-! ### The step from reset runs the offered word, and the quiet reset machine stays ready -/

theorem test_first_step_runs_the_word :
    step (State.reset.withFetchWord 40 0x0005C0003C) =
      .next ((State.reset.withFetchWord 40 0x0005C0003C).answer
        { zeroRsp with ok := true, obj := 0x00028708002C0111 }).nextCycle := rfl
theorem test_reset_step_is_quiet : step State.reset = .next { State.reset with tick := 1 } := rfl

end Sys2Proof.Tests
end

/-!
The packed data object and the packed control input (spec/30_encoding.md R71, R72): what is read from
one placed field, then one lemma per field of each packed word, then obligations O8 and O9.
-/

namespace Sys2Proof

/-! ### Reading a word of placed fields -/

/-- A field reads back from its own place. -/
@[simp] theorem extractLsb'_place_self {n lo w : Nat} (v : BitVec w) (h : lo + w ≤ n) :
    (place n lo v).extractLsb' lo w = v := by
  ext i hi
  have hn : lo + i < n := by omega
  rw [BitVec.getElem_extractLsb', getLsbD_place]
  simp [hn, hi]

/-- A bit outside a field's place is 0 in the placed field. -/
theorem getLsbD_place_of_outside {n lo w : Nat} (v : BitVec w) {i : Nat} (h : i < lo ∨ lo + w ≤ i) :
    (place n lo v).getLsbD i = false := by
  rw [getLsbD_place]
  rcases h with hlt | hge
  · simp [Nat.not_le.2 hlt]
  · simp [BitVec.getLsbD_of_ge v (i - lo) (by omega)]

/-- A range of bits that misses a field's place reads 0 from the placed field. -/
@[simp] theorem extractLsb'_place_of_disjoint {n lo w : Nat} (v : BitVec w) {lo' len : Nat}
    (h : lo' + len ≤ lo ∨ lo + w ≤ lo') : (place n lo v).extractLsb' lo' len = 0 := by
  ext i hi
  have outside : lo' + i < lo ∨ lo + w ≤ lo' + i := by omega
  rw [BitVec.getElem_extractLsb', getLsbD_place_of_outside v outside]
  simp

@[simp] theorem getElem_place_of_outside {n lo w : Nat} (v : BitVec w) {i : Nat} (hi : i < n)
    (h : i < lo ∨ lo + w ≤ i) : (place n lo v)[i] = false := by
  rw [← BitVec.getLsbD_eq_getElem, getLsbD_place_of_outside v h]

/-- A one-bit field reads back as the bit at its place. -/
@[simp] theorem getElem_place_ofBool_self {n lo : Nat} (b : Bool) (h : lo < n) :
    (place n lo (BitVec.ofBool b))[lo] = b := by
  rw [← BitVec.getLsbD_eq_getElem, getLsbD_place]
  simp [h]

/-! ### The values the fields carry -/

/-- NameCodes lose no name (R70). -/
@[simp] theorem nameOfCode_codeOfName (m : Option CmdName) : nameOfCode (codeOfName m) = m := by
  match m with
  | none => rfl
  | some (.other k) => revert k; decide
  | some .up | some .down | some .idle | some .confirm | some .setLimit
  | some .my | some .deepUp | some .deepDown => rfl

/-- Each of the sixteen NameCodes stands for its own name (R70). -/
@[simp] theorem codeOfName_nameOfCode : ∀ c : Nibble, codeOfName (nameOfCode c) = c := by decide

/-- A presence bit and a defaulted value together are the optional field, whatever the default. -/
@[simp] theorem present_isSome_getD {α : Type} (field : Option α) (d : α) :
    present field.isSome (field.getD d) = field := by
  cases field <;> rfl

@[simp] theorem dirOfBit_bitOfDir (d : Direction) : dirOfBit (bitOfDir d) = d := by cases d <;> rfl

theorem bitOfDir_eq_beq_outbound (d : Direction) : bitOfDir d = (d == .outbound) := by cases d <;> rfl

/-! ### The packed control input, bit by bit (R72) -/

section PackCtl

variable (c : Ctl)

@[simp] theorem packCtl_rot180 : (packCtl c)[0] = c.rot180 := by
  simp [packCtl]

@[simp] theorem packCtl_invertTilt : (packCtl c)[1] = c.invertTilt := by
  simp [packCtl]

@[simp] theorem packCtl_dir : (packCtl c)[2] = bitOfDir c.dir := by
  simp [packCtl]

@[simp] theorem packCtl_pairing : (packCtl c)[3] = c.pairing := by
  simp [packCtl]

@[simp] theorem unpackCtl_packCtl : unpackCtl (packCtl c) = c := by
  simp [unpackCtl]

end PackCtl

/-! ### The packed data object, field by field (R71) -/

section PackObj

variable (o : DataObject)

@[simp] theorem packObj_cmd : (packObj o).extractLsb' 0 4 = codeOfName o.cmd := by
  simp [packObj, BitVec.extractLsb'_or]

@[simp] theorem packObj_state : (packObj o).extractLsb' 4 4 = codeOfName o.state := by
  simp [packObj, BitVec.extractLsb'_or]

@[simp] theorem packObj_direction : (packObj o).extractLsb' 8 4 = codeOfName o.direction := by
  simp [packObj, BitVec.extractLsb'_or]

@[simp] theorem packObj_tilt : (packObj o).extractLsb' 12 4 = codeOfName o.tilt := by
  simp [packObj, BitVec.extractLsb'_or]

@[simp] theorem packObj_tiltUp : (packObj o)[16] = o.tiltUp := by
  simp [packObj]

@[simp] theorem packObj_tiltDown : (packObj o)[17] = o.tiltDown := by
  simp [packObj]

@[simp] theorem packObj_addressPresent : (packObj o)[18] = o.address.isSome := by
  simp [packObj]

@[simp] theorem packObj_address : (packObj o).extractLsb' 19 16 = o.address.getD 0 := by
  simp [packObj, BitVec.extractLsb'_or]

@[simp] theorem packObj_unitPresent : (packObj o)[35] = o.unit.isSome := by
  simp [packObj]

@[simp] theorem packObj_unit : (packObj o).extractLsb' 36 4 = o.unit.getD 0 := by
  simp [packObj, BitVec.extractLsb'_or]

@[simp] theorem packObj_groupPresent : (packObj o)[40] = o.group.isSome := by
  simp [packObj]

@[simp] theorem packObj_group : (packObj o)[41] = o.group.getD false := by
  simp [packObj]

@[simp] theorem packObj_idPresent : (packObj o)[42] = o.id.isSome := by
  simp [packObj]

@[simp] theorem packObj_id : (packObj o).extractLsb' 43 20 = o.id.getD 0 := by
  simp [packObj, BitVec.extractLsb'_or]

@[simp] theorem packObj_pad : (packObj o)[63] = false := by
  simp [packObj]

@[simp] theorem unpackObj_packObj : unpackObj (packObj o) = o := by
  simp [unpackObj]

end PackObj

/-- Canonical words are equal exactly when their records are: the reader is a left inverse of the writer (R71). -/
theorem packObj_inj {o o' : DataObject} : packObj o = packObj o' ↔ o = o' :=
  (Function.LeftInverse.injective unpackObj_packObj).eq_iff

@[simp] theorem packObj_empty : packObj {} = 0 := by decide

/-! ### The obligations -/

/-- Settles O9: the field lemmas of the packed control input. -/
theorem packedControlLayout : Obligations.PackedControlLayout := by
  intro c
  exact ⟨unpackCtl_packCtl c, by simp, by simp, by simp [bitOfDir_eq_beq_outbound], by simp⟩

/-- Settles O8: the field lemmas of the packed object as written, the reader as its left inverse, and the fields of
any word as read. -/
theorem packedObjectLayout : Obligations.PackedObjectLayout := by
  refine ⟨fun o => ?written, unpackObj_packObj, fun _ _ => packObj_inj, fun w => ?read, packObj_empty⟩
  case written => simp
  case read => simp [unpackObj, present]

end Sys2Proof

/-!
The BitStream Codec (spec/40_bitstream_codec.md R100, R101): the bits of a sequence vector, the wire bits of a byte
sequence, the two parts of a grouped bit sequence, then obligations O27 and O28.

Both operations are read bit by bit through `bytesToBits`: the vector of a byte sequence is the vector of its wire
bits, and the bytes that B2BY makes have as wire bits the bits they were made of.
-/

namespace Sys2Proof.Machine

/-! ### Sequence vectors (R75) -/

@[simp] theorem vectorOfBits_nil : vectorOfBits [] = 0 := rfl

@[simp] theorem vectorOfBits_cons (b : Bool) (bits : List Bool) :
    vectorOfBits (b :: bits) = b.toNat + 2 * vectorOfBits bits := rfl

@[simp] theorem vectorOfBytes_nil : vectorOfBytes [] = 0 := rfl

@[simp] theorem vectorOfBytes_cons (b : Byte) (bytes : List Byte) :
    vectorOfBytes (b :: bytes) = b.toNat + 256 * vectorOfBytes bytes := rfl

/-- Vector bit `i` is element `i`, and the bits at and above the length are 0. -/
@[simp] theorem testBit_vectorOfBits (bits : List Bool) (i : Nat) :
    (vectorOfBits bits).testBit i = bits.getD i false := by
  induction bits generalizing i with
  | nil => simp
  | cons b bits ih =>
    have halved : (b.toNat + 2 * vectorOfBits bits) / 2 = vectorOfBits bits := by
      have := b.toNat_le
      omega
    cases i with
    | zero => cases b <;> simp
    | succ i => simp [Nat.testBit_add_one, halved, ih]

/-- A sequence after another stands above it on the vector. -/
theorem vectorOfBits_append (low high : List Bool) :
    vectorOfBits (low ++ high) = vectorOfBits low + 2 ^ low.length * vectorOfBits high := by
  induction low with
  | nil => simp
  | cons b low ih => simp [ih, pow_succ]; ring

/-! ### The wire bits of a byte sequence (R101) -/

@[simp] theorem vectorOfBits_bitsOfByte : ∀ b : Byte, vectorOfBits (bitsOfByte b) = b.toNat := by decide

/-- The vector of a byte sequence is the vector of the bits BY2B makes of it (R75). -/
theorem vectorOfBits_bytesToBits (bytes : List Byte) : vectorOfBits (bytesToBits bytes) = vectorOfBytes bytes := by
  induction bytes with
  | nil => rfl
  | cons b bytes ih => simp [vectorOfBits_append, ih]

@[simp] theorem bytesToBits_length (bytes : List Byte) : (bytesToBits bytes).length = 8 * bytes.length := by
  induction bytes with
  | nil => rfl
  | cons b bytes ih => simp [ih]; omega

theorem getD_bitsOfByte (b : Byte) {i : Nat} (hi : i < 8) : (bitsOfByte b).getD i false = b.getLsbD i := by
  match i, hi with
  | 0, _ | 1, _ | 2, _ | 3, _ | 4, _ | 5, _ | 6, _ | 7, _ => rfl

/-- Wire bit `8k + i` is bit `i` of byte `k` (R101). -/
theorem getD_bytesToBits (bytes : List Byte) (k : Nat) {i : Nat} (hi : i < 8) :
    (bytesToBits bytes).getD (8 * k + i) false = (bytes.getD k 0).getLsbD i := by
  induction bytes generalizing k with
  | nil => simp
  | cons b bytes ih =>
    rw [bytesToBits_cons]
    cases k with
    | zero =>
      rw [List.getD_append _ _ _ _ (by simpa using hi)]
      simpa using getD_bitsOfByte b hi
    | succ k =>
      rw [List.getD_append_right _ _ _ _ (by simp; omega)]
      have rest : 8 * (k + 1) + i - (bitsOfByte b).length = 8 * k + i := by simp; omega
      rw [rest, ih, List.getD_cons_succ]

/-! ### The two parts of a grouped bit sequence (R100) -/

/-- Induction over a bit sequence by groups of eight, down to a short group. -/
theorem bitGroups_induction {P : List Bool → Prop} (short : ∀ bits, bits.length < 8 → P bits)
    (group : ∀ c0 c1 c2 c3 c4 c5 c6 c7 rest, P rest → P (c0 :: c1 :: c2 :: c3 :: c4 :: c5 :: c6 :: c7 :: rest)) :
    ∀ bits, P bits
  | c0 :: c1 :: c2 :: c3 :: c4 :: c5 :: c6 :: c7 :: rest =>
    group c0 c1 c2 c3 c4 c5 c6 c7 rest (bitGroups_induction short group rest)
  | [] | [_] | [_, _] | [_, _, _] | [_, _, _, _] | [_, _, _, _, _] | [_, _, _, _, _, _]
  | [_, _, _, _, _, _, _] => short _ (by simp)

/-- The wire bits of the complete bytes, then the residue, are the sequence itself (R102). -/
theorem bytesToBits_append_residue (bits : List Bool) :
    bytesToBits (bitsToBytes bits).1 ++ (bitsToBytes bits).2 = bits := by
  induction bits using bitGroups_induction with
  | short bits hshort => simp [bitsToBytes_short bits hshort]
  | group c0 c1 c2 c3 c4 c5 c6 c7 rest ih => simp [bitsOfByte_byteOfBits, ih]

theorem bitsToBytes_residue_length (bits : List Bool) : (bitsToBytes bits).2.length = bits.length % 8 := by
  induction bits using bitGroups_induction with
  | short bits hshort => simp [bitsToBytes_short bits hshort, Nat.mod_eq_of_lt hshort]
  | group c0 c1 c2 c3 c4 c5 c6 c7 rest ih => simp [ih, Nat.add_assoc]

theorem bitsToBytes_bytes_length (bits : List Bool) : (bitsToBytes bits).1.length = bits.length / 8 := by
  have parts := congrArg List.length (bytesToBits_append_residue bits)
  rw [List.length_append, bytesToBits_length, bitsToBytes_residue_length] at parts
  omega

/-- The wire bits of the complete bytes end where the residue begins. -/
theorem bytesToBits_bitsToBytes_length (bits : List Bool) :
    (bytesToBits (bitsToBytes bits).1).length = 8 * (bits.length / 8) := by
  rw [bytesToBits_length, bitsToBytes_bytes_length]

/-- Below the residue, bit `j` of the byte vector is wire bit `j`. -/
theorem testBit_vectorOfBytes_bitsToBytes_of_lt (bits : List Bool) {j : Nat} (hj : j < 8 * (bits.length / 8)) :
    (vectorOfBytes (bitsToBytes bits).1).testBit j = bits.getD j false := by
  rw [← bytesToBits_bitsToBytes_length] at hj
  rw [← vectorOfBits_bytesToBits, testBit_vectorOfBits, ← List.getD_append _ (bitsToBytes bits).2 _ _ hj,
    bytesToBits_append_residue]

theorem testBit_vectorOfBytes_bitsToBytes_of_ge (bits : List Bool) {j : Nat} (hj : 8 * (bits.length / 8) ≤ j) :
    (vectorOfBytes (bitsToBytes bits).1).testBit j = false := by
  rw [← bytesToBits_bitsToBytes_length] at hj
  rw [← vectorOfBits_bytesToBits, testBit_vectorOfBits, List.getD_eq_default _ _ hj]

/-- The residue is what follows the complete bytes, in order. -/
theorem getD_bitsToBytes_residue (bits : List Bool) (i : Nat) :
    (bitsToBytes bits).2.getD i false = bits.getD (8 * (bits.length / 8) + i) false := by
  have after := List.getD_append_right (bytesToBits (bitsToBytes bits).1) (bitsToBytes bits).2 false _
    (Nat.le_add_right _ i)
  rw [bytesToBits_append_residue, bytesToBits_bitsToBytes_length, Nat.add_sub_cancel_left] at after
  exact after.symm

/-! ### The response ports and the decoded requests -/

theorem rspBytesResidue_rn (r : List Byte × List Bool) (h : r.2.length < 8) :
    (rspBytesResidue r).rn.toNat = r.2.length := by
  simpa [rspBytesResidue] using h

theorem rspBytesResidue_res (r : List Byte × List Bool) {i : Nat} (hi : i < 7) :
    (rspBytesResidue r).res.getLsbD i = r.2.getD i false := by
  simp only [rspBytesResidue, BitVec.getLsbD_ofNat, hi, decide_true, Bool.true_and, testBit_vectorOfBits]

/-- Select 0x1 within MAXBITS names B2BY (R73). -/
theorem decode_b2by {r : Request} (hop : r.op = 0x1) (hn : r.n ≤ Config.maxBits) :
    decode (.request r) = .ok (.b2by (bitsOfVector r.n r.seq)) := by
  simp [decode, decodeRequest, withBits, hop, hn]

/-- Select 0x2 within MAXBYTES names BY2B (R73). -/
theorem decode_by2b {r : Request} (hop : r.op = 0x2) (hn : r.n ≤ Config.maxBytes) :
    decode (.request r) = .ok (.by2b (bytesOfVector r.n r.seq)) := by
  simp [decode, decodeRequest, withBytes, hop, hn]

theorem exec_b2by (bits : List Bool) (s : State) :
    exec (.b2by bits) s = .next (s.answer (rspBytesResidue (bitsToBytes bits))) := rfl

theorem exec_by2b (bytes : List Byte) (s : State) :
    exec (.by2b bytes) s = .next (s.answer (rspBits (bytesToBits bytes))) := rfl

/-! ### The obligations -/

/-- Settles O27: the byte vector below and above the end of the complete bytes, and the residue after them. -/
theorem b2byGroupsBitsByEight : Obligations.B2byGroupsBitsByEight := by
  refine ⟨fun r => decode_b2by, fun bits s => ⟨_, exec_b2by bits s, ?ports, ?rn, ?bytes, ?above, ?residue⟩⟩
  case ports => simp [rspBytesResidue, rspBytes, rspOk, zeroRsp, bitsToBytes_bytes_length]
  case rn =>
    have hres := bitsToBytes_residue_length bits
    rw [rspBytesResidue_rn _ (by omega), hres]
  case bytes =>
    intro k i hk hi
    exact testBit_vectorOfBytes_bitsToBytes_of_lt bits (by omega)
  case above => exact fun j => testBit_vectorOfBytes_bitsToBytes_of_ge bits
  case residue =>
    intro i hi
    rw [rspBytesResidue_res _ hi, getD_bitsToBytes_residue]

/-- Settles O28: the vector bits are the wire bits, and these are the bits of the bytes. -/
theorem by2bEmitsLeastSignificantBitFirst : Obligations.By2bEmitsLeastSignificantBitFirst := by
  refine ⟨fun r => decode_by2b, fun bytes s => ⟨_, exec_by2b bytes s, ?ports, ?bits⟩⟩
  case ports => simp [rspBits, rspOk, zeroRsp]
  case bits =>
    intro k i hi
    exact (testBit_vectorOfBits _ _).trans (getD_bytesToBits bytes k hi)

end Sys2Proof.Machine

/-!
The Checksum Engine (spec/41_checksum_engine.md R110, R111): the running subtraction on numbers, the verdict on the
empty and on a longer sequence, then obligations O30 and O32.
-/

namespace Sys2Proof.Machine

/-! ### The running subtraction (R110) -/

/-- With bit 8 set the accumulator is at least as large as any byte, so the subtraction on numbers never borrows. -/
theorem csumStep_toNat (acc b : Byte) :
    (csumStep acc b).toNat = ((0x100 ||| acc.toNat) - b.toNat) &&& 0xFF := by
  have hacc := acc.isLt
  have hb := b.isLt
  have setBit8 : 0x100 ||| acc.toNat = 0x100 + acc.toNat := (Nat.two_pow_add_eq_or_of_lt (i := 8) hacc 1).symm
  have mask : ∀ n : Nat, n &&& 0xFF = n % 0x100 := fun n => Nat.and_two_pow_sub_one_eq_mod n 8
  rw [csumStep_eq_sub, BitVec.toNat_sub, setBit8, mask]
  omega

/-- The accumulator after `k + 1` bytes is one step on from the accumulator after `k`. -/
theorem csum_take_succ {bytes : List Byte} {k : Nat} (hk : k < bytes.length) :
    csum (bytes.take (k + 1)) = csumStep (csum (bytes.take k)) (bytes.getD k 0) := by
  rw [List.take_succ_eq_append_getElem hk, csum_append_singleton, csumStep_eq_sub, List.getD_eq_getElem _ _ hk]

/-! ### The verdict (R111) -/

@[simp] theorem verifies_nil : verifies [] = false := rfl

theorem verifies_append_singleton (init : List Byte) (last : Byte) :
    verifies (init ++ [last]) = (!init.isEmpty && csum init == last) := by
  cases init with
  | nil => rfl
  | cons b rest =>
    have long : ¬ (b :: rest ++ [last]).length < 2 := by simp
    rw [verifies, if_neg long, List.dropLast_concat, List.getLastD_concat]
    rfl

/-! ### The decoded requests and the answers -/

/-- Select 0x3 within MAXBYTES names CSUM (R73). -/
theorem decode_csum {r : Request} (hop : r.op = 0x3) (hn : r.n ≤ Config.maxBytes) :
    decode (.request r) = .ok (.csum (bytesOfVector r.n r.seq)) := by
  simp [decode, decodeRequest, withBytes, hop, hn]

/-- Select 0x4 within MAXBYTES names VERIFY (R73). -/
theorem decode_verify {r : Request} (hop : r.op = 0x4) (hn : r.n ≤ Config.maxBytes) :
    decode (.request r) = .ok (.verify (bytesOfVector r.n r.seq)) := by
  simp [decode, decodeRequest, withBytes, hop, hn]

theorem exec_csum (bytes : List Byte) (s : State) :
    exec (.csum bytes) s = .next (s.answer (rspByte (csum bytes))) := rfl

theorem exec_verify (bytes : List Byte) (s : State) :
    exec (.verify bytes) s = .next (s.answer { zeroRsp with ok := true, bool := verifies bytes }) := rfl

/-! ### The obligations -/

/-- Settles O30: the accumulator after `k` bytes is the checksum of the first `k` bytes. -/
theorem csumRunsTheSubtraction : Obligations.CsumRunsTheSubtraction := by
  refine ⟨fun r => decode_csum, fun bytes s =>
    ⟨_, fun k => (csum (bytes.take k)).toNat, exec_csum bytes s, rfl, rfl, ?step, ?last⟩⟩
  case step =>
    intro k hk
    simp only [csum_take_succ hk, csumStep_toNat]
  case last => simp only [List.take_length, rspByte]

/-- Settles O32: the verdict on the empty sequence and on one with a last byte. -/
theorem verifyComparesTheLastByte : Obligations.VerifyComparesTheLastByte := by
  refine ⟨fun r => decode_verify, fun s => ?empty, fun init last s => ?longer⟩
  case empty => rw [exec_verify, verifies_nil]
  case longer => rw [exec_verify, verifies_append_singleton]

end Sys2Proof.Machine

/-!
The Command Map (spec/42_command_mapper.md R120, R121): the lookups outside the table, what a NoMatch means for FDEC
and FENC, then obligations O34 and O35.
-/

namespace Sys2Proof.Machine

/-! ### Replies without a result -/

/-- Different outcomes have different reason codes (R74). -/
theorem reasonCode_inj {e e' : Reason} : reasonCode e = reasonCode e' ↔ e = e' := by
  cases e <;> cases e' <;> decide

/-- A reply shows the no-result response of an outcome only when that is the outcome (R180). -/
theorem reply_eq_answer_rspNoResult {α : Type} {s : State} {form : α → Rsp} (hform : ∀ v, (form v).ok = true)
    {x : Except Reason α} {e : Reason} : s.reply form x = s.answer (rspNoResult e) ↔ x = .error e := by
  cases x with
  | ok v =>
    have differ : form v ≠ rspNoResult e := fun h => by simpa [hform] using congrArg Rsp.ok h
    simp [differ]
  | error e' => simp [rspNoResult, reasonCode_inj]

/-! ### Lookups outside the table -/

/-- The lookup by code fails on every code that is in no row (R120). -/
theorem nameForCode_of_unmapped {code : Nibble} (up : code ≠ 0xC) (down : code ≠ 0x1) (idle : code ≠ 0x5)
    (confirm : code ≠ 0x4) (setLimit : code ≠ 0x2) : nameForCode code = .error .noMatch := by
  have noRow : cmdTable.find? (fun row => row.1 == code) = none := by
    simpa [cmdTable] using ⟨up.symm, down.symm, idle.symm, confirm.symm, setLimit.symm⟩
  simp only [nameForCode, noRow]

/-! ### What a failed lookup means for a frame -/

/-- A verified sequence of five bytes or more whose code has no name is reported as UnknownCommandCode (R130). -/
theorem frameFromBytes_of_nameForCode_error {bytes : List Byte} {e : Reason} (hlen : 5 ≤ bytes.length)
    (hverified : verifies bytes = true) (hname : nameForCode (highNibble (bytes.getD 2 0)) = .error e) :
    frameFromBytes bytes = .error .unknownCommandCode := by
  match bytes, hlen with
  | b0 :: b1 :: b2 :: b3 :: b4 :: rest, _ =>
    have hname : nameForCode (highNibble b2) = .error e := hname
    simp [frameFromBytes, hverified, objectOfBytes, hname]

/-- An object whose selected name has no code cannot be encoded, with or without an address (R131). -/
theorem bytesFromFrame_of_codeForName_error {o : DataObject} {e : Reason}
    (hcode : codeForName (selectName o) = .error e) : bytesFromFrame o = .error .unresolvableEncodeRequest := by
  cases h : bytesFromFrame o with
  | error e' => rw [bytesFromFrame_error h]
  | ok bytes =>
    obtain ⟨_, code, _, hcode', _⟩ := bytesFromFrame_ok h
    simp [hcode] at hcode'

/-- Without a tilt flag an encode takes `cmd`, and `state` only when there is no `cmd` (R131). -/
theorem selectName_of_no_tilt {o : DataObject} (hup : o.tiltUp = false) (hdown : o.tiltDown = false) :
    selectName o = if o.cmd.isSome then o.cmd else o.state := by
  simp [selectName, hup, hdown]

/-! ### The decoded requests and the answers -/

/-- Select 0x5 names CMDNAME (R73). -/
theorem decode_cmdname {r : Request} (hop : r.op = 0x5) : decode (.request r) = .ok (.cmdname r.nib) := by
  simp [decode, decodeRequest, hop]

/-- Select 0x6 names CMDCODE (R73). -/
theorem decode_cmdcode {r : Request} (hop : r.op = 0x6) :
    decode (.request r) = .ok (.cmdcode (nameOfCode r.nib)) := by
  simp [decode, decodeRequest, hop]

theorem exec_cmdname (code : Nibble) (s : State) :
    exec (.cmdname code) s = .next (s.reply rspName (nameForCode code)) := rfl

theorem exec_cmdcode (name : Option CmdName) (s : State) :
    exec (.cmdcode name) s = .next (s.reply rspNibble (codeForName name)) := rfl

theorem exec_fdec (bytes : List Byte) (s : State) :
    exec (.fdec bytes) s = .next (s.reply rspObject (frameFromBytes bytes)) := rfl

theorem exec_fenc (o : DataObject) (s : State) :
    exec (.fenc o) s = .next (s.reply rspBytes (bytesFromFrame o)) := rfl

/-- CMDNAME answers the NameCode of the name it finds. -/
theorem exec_cmdname_of_ok {code : Nibble} {m : CmdName} {s : State} (h : nameForCode code = .ok m) :
    exec (.cmdname code) s = .next (s.answer { zeroRsp with ok := true, nib := codeOfName (some m) }) := by
  rw [exec_cmdname, h]
  rfl

/-- CMDCODE answers the code it finds. -/
theorem exec_cmdcode_of_ok {name : Option CmdName} {code : Nibble} {s : State} (h : codeForName name = .ok code) :
    exec (.cmdcode name) s = .next (s.answer { zeroRsp with ok := true, nib := code }) := by
  rw [exec_cmdcode, h]
  rfl

/-- CMDNAME answers reason 4 exactly for the codes without a name. -/
theorem exec_cmdname_eq_noMatch {code : Nibble} {s : State} :
    exec (.cmdname code) s = .next (s.answer (noResult 4)) ↔ nameForCode code = .error .noMatch := by
  rw [exec_cmdname, next_inj]
  exact reply_eq_answer_rspNoResult rspName_ok (e := .noMatch)

/-- CMDCODE answers reason 4 exactly for the names without a code, and for no name. -/
theorem exec_cmdcode_eq_noMatch {name : Option CmdName} {s : State} :
    exec (.cmdcode name) s = .next (s.answer (noResult 4)) ↔ codeForName name = .error .noMatch := by
  rw [exec_cmdcode, next_inj]
  exact reply_eq_answer_rspNoResult rspNibble_ok (e := .noMatch)

/-! ### The obligations -/

/-- Settles O34: the five rows by code, every code outside them, and FDEC on a code without a name. -/
theorem cmdnameLooksUpTheCode : Obligations.CmdnameLooksUpTheCode := by
  refine ⟨fun r => decode_cmdname, fun code s => ?lookup, fun bytes s hlen hverified hmiss => ?fdec⟩
  case lookup =>
    split_ifs with up down idle confirm setLimit
    · exact exec_cmdname_of_ok (up ▸ nameForCode_up)
    · exact exec_cmdname_of_ok (down ▸ nameForCode_down)
    · exact exec_cmdname_of_ok (idle ▸ nameForCode_idle)
    · exact exec_cmdname_of_ok (confirm ▸ nameForCode_confirm)
    · exact exec_cmdname_of_ok (setLimit ▸ nameForCode_setLimit)
    · exact exec_cmdname_eq_noMatch.mpr (nameForCode_of_unmapped up down idle confirm setLimit)
  case fdec =>
    have hname := exec_cmdname_eq_noMatch.mp hmiss
    rw [exec_fdec, frameFromBytes_of_nameForCode_error hlen hverified hname]
    rfl

/-- Settles O35: the five names and no name, the names outside the table, and FENC on a name without a code. -/
theorem cmdcodeLooksUpTheName : Obligations.CmdcodeLooksUpTheName := by
  refine ⟨fun r => decode_cmdcode, fun name s => ?lookup, fun o s hup hdown hmiss => ?fenc⟩
  case lookup =>
    match name with
    | some .up => exact exec_cmdcode_of_ok codeForName_up
    | some .down => exact exec_cmdcode_of_ok codeForName_down
    | some .idle => exact exec_cmdcode_of_ok codeForName_idle
    | some .confirm => exact exec_cmdcode_of_ok codeForName_confirm
    | some .setLimit => exact exec_cmdcode_of_ok codeForName_setLimit
    | some .my => exact exec_cmdcode_eq_noMatch.mpr codeForName_my
    | some .deepUp => exact exec_cmdcode_eq_noMatch.mpr codeForName_deepUp
    | some .deepDown => exact exec_cmdcode_eq_noMatch.mpr codeForName_deepDown
    | some (.other k) => exact exec_cmdcode_eq_noMatch.mpr (codeForName_other k)
    | none => exact exec_cmdcode_eq_noMatch.mpr codeForName_none
  case fenc =>
    have hcode := exec_cmdcode_eq_noMatch.mp hmiss
    rw [← selectName_of_no_tilt hup hdown] at hcode
    rw [exec_fenc, bytesFromFrame_of_codeForName_error hcode]
    rfl

end Sys2Proof.Machine

/-!
The Frame Codec (spec/43_frame_codec.md R130, R131, R134): the joined and split fields of a frame as numbers, FDEC by
its outcomes, FENC by its outcomes, what a decode and an encode do with travel and tilt, then obligations O37, O38
and O41.
-/

namespace Sys2Proof.Machine

/-! ### Joined and split fields as numbers (R67, R68) -/

theorem place_eq_ofNat (n lo : Nat) {w : Nat} (v : BitVec w) : place n lo v = BitVec.ofNat n (2 ^ lo * v.toNat) := by
  apply BitVec.eq_of_toNat_eq
  simp [place, Nat.shiftLeft_eq, Nat.mul_comm]

/-- Two fields placed without a gap are the number with the high field above the low one. -/
theorem place_or_place_zero (n : Nat) {wh wl : Nat} (high : BitVec wh) (low : BitVec wl) :
    place n wl high ||| place n 0 low = BitVec.ofNat n (high.toNat * 2 ^ wl + low.toNat) := by
  have join : 2 ^ wl * high.toNat + low.toNat = 2 ^ wl * high.toNat ||| low.toNat :=
    Nat.two_pow_add_eq_or_of_lt low.isLt high.toNat
  rw [Nat.mul_comm high.toNat, join, BitVec.ofNat_or, place_eq_ofNat, place_eq_ofNat, Nat.pow_zero, Nat.one_mul]

theorem addressOfBytes_eq_ofNat (high low : Byte) :
    addressOfBytes high low = BitVec.ofNat 16 (high.toNat * 256 + low.toNat) :=
  place_or_place_zero 16 high low

theorem byteOfNibbles_eq_ofNat (high low : Nibble) :
    byteOfNibbles high low = BitVec.ofNat 8 (high.toNat * 16 + low.toNat) :=
  place_or_place_zero 8 high low

theorem idOf_eq_ofNat (address : BitVec 16) (unit : Nibble) :
    idOf address unit = BitVec.ofNat 20 (address.toNat * 16 + unit.toNat) :=
  place_or_place_zero 20 address unit

theorem addressOfBytes_toNat (high low : Byte) : (addressOfBytes high low).toNat = high.toNat * 256 + low.toNat := by
  have hhigh := high.isLt
  have hlow := low.isLt
  rw [addressOfBytes_eq_ofNat, BitVec.toNat_ofNat]
  omega

theorem lowNibble_eq_ofNat (b : Byte) : lowNibble b = BitVec.ofNat 4 (b.toNat % 16) := by
  revert b; decide

theorem lowNibble_toNat (b : Byte) : (lowNibble b).toNat = b.toNat % 16 := by
  revert b; decide

theorem highNibble_eq_ofNat (b : Byte) : highNibble b = BitVec.ofNat 4 (b.toNat / 16) := by
  revert b; decide

theorem highNibble_toNat (b : Byte) : (highNibble b).toNat = b.toNat / 16 := by
  revert b; decide

/-- A nibble is the high one of a byte exactly when the byte divided by 16 is its number. -/
theorem toNat_div_eq_iff_highNibble (b : Byte) (n : Nibble) : b.toNat / 16 = n.toNat ↔ highNibble b = n := by
  rw [← highNibble_toNat, BitVec.toNat_inj]

/-! ### FDEC by its outcomes (R130) -/

/-- The object of R130 step 7, its fields computed as numbers from the bytes. -/
def numberedObject (bytes : List Byte) (m : CmdName) : DataObject :=
  let address := (bytes.getD 0 0).toNat * 256 + (bytes.getD 1 0).toNat
  let unit := (bytes.getD 2 0).toNat % 16
  { address := some (BitVec.ofNat 16 address), unit := some (BitVec.ofNat 4 unit), group := some (unit == 0)
    cmd := some m, id := some (BitVec.ofNat 20 (address * 16 + unit)) }

theorem frameObject_eq_numberedObject (bytes : List Byte) (m : CmdName) :
    frameObject (addressOfBytes (bytes.getD 0 0) (bytes.getD 1 0)) (lowNibble (bytes.getD 2 0)) m =
      numberedObject bytes m := by
  have group : (lowNibble (bytes.getD 2 0) == 0) = ((bytes.getD 2 0).toNat % 16 == 0) := by
    rw [← lowNibble_toNat, Bool.eq_iff_iff, beq_iff_eq, beq_iff_eq, ← BitVec.toNat_inj]
    rfl
  simp only [frameObject, numberedObject, group, idOf_eq_ofNat, addressOfBytes_toNat, lowNibble_toNat,
    ← addressOfBytes_eq_ofNat, ← lowNibble_eq_ofNat]

/-- Below five bytes there is no frame (R130 step 1). -/
theorem frameFromBytes_of_short {bytes : List Byte} (hlen : bytes.length < 5) :
    frameFromBytes bytes = .error .malformedPayload := by
  unfold frameFromBytes
  split
  · simp at hlen; omega
  · rfl

/-- A sequence with a wrong checksum is no frame (R130 step 2). -/
theorem frameFromBytes_of_not_verified {bytes : List Byte} (hverified : verifies bytes = false) :
    frameFromBytes bytes = .error .malformedPayload := by
  unfold frameFromBytes
  split
  · simp [hverified]
  · rfl

/-- A verified sequence of five bytes or more whose code has a name gives its object (R130 steps 3 to 17). -/
theorem frameFromBytes_of_nameForCode_ok {bytes : List Byte} {m : CmdName} (hlen : 5 ≤ bytes.length)
    (hverified : verifies bytes = true) (hname : nameForCode (highNibble (bytes.getD 2 0)) = .ok m) :
    frameFromBytes bytes = .ok (addMotion m (bytes.getD 3 0) (numberedObject bytes m)) := by
  rw [← frameObject_eq_numberedObject]
  match bytes, hlen with
  | b0 :: b1 :: b2 :: b3 :: b4 :: rest, _ =>
    have hname : nameForCode (highNibble b2) = .ok m := hname
    simp [frameFromBytes, hverified, objectOfBytes, hname]

/-- The tilt nibble of byte 3 decides between a tilt pulse up and full travel up (R130 steps 8 to 13). -/
theorem addMotion_up (b3 : Byte) (o : DataObject) : addMotion .up b3 o =
    if b3.toNat / 16 = 1 then { o with tiltUp := true, tilt := some .up }
    else { o with state := some .up, direction := some .up } := by
  simp only [addMotion, ← toNat_div_eq_iff_highNibble]
  rfl

/-- The tilt nibble of byte 3 decides between a tilt pulse down and full travel down (R130 steps 8 to 13). -/
theorem addMotion_down (b3 : Byte) (o : DataObject) : addMotion .down b3 o =
    if b3.toNat / 16 = 1 then { o with tiltDown := true, tilt := some .down }
    else { o with state := some .down, direction := some .down } := by
  simp only [addMotion, ← toNat_div_eq_iff_highNibble]
  rfl

/-- What the command and byte 3 can add to an object: nothing, a tilt pulse, full travel, or a stop. -/
theorem addMotion_cases (name : CmdName) (b3 : Byte) (o : DataObject) :
    addMotion name b3 o = o ∨
    addMotion name b3 o = { o with tiltUp := true, tilt := some .up } ∨
    addMotion name b3 o = { o with tiltDown := true, tilt := some .down } ∨
    addMotion name b3 o = { o with state := some name, direction := some name } ∨
    addMotion name b3 o = { o with state := some .idle } := by
  cases name with
  | up => rw [addMotion_up]; split_ifs <;> simp
  | down => rw [addMotion_down]; split_ifs <;> simp
  | idle => simp [addMotion]
  | confirm | setLimit | my | deepUp | deepDown | other => exact .inl rfl

/-! ### FENC by its outcomes (R131) -/

/-- Without an address there is nothing to encode (R131 line 1). -/
theorem bytesFromFrame_of_address_none {o : DataObject} (haddress : o.address = none) :
    bytesFromFrame o = .error .unresolvableEncodeRequest := by
  simp [bytesFromFrame, haddress]

/-- With an address and a code, FENC gives the payload and its checksum (R131 lines 9 to 11). -/
theorem bytesFromFrame_of_codeForName_ok {o : DataObject} {address : BitVec 16} {code : Nibble}
    (haddress : o.address = some address) (hcode : codeForName (selectName o) = .ok code) :
    bytesFromFrame o = .ok (payloadBytes address code (o.unit.getD 0) (isTilt o) ++
      [csum (payloadBytes address code (o.unit.getD 0) (isTilt o))]) := by
  simp [bytesFromFrame, haddress, hcode]

/-- The payload bytes computed as numbers (R68). -/
theorem payloadBytes_eq_map_ofNat (address : BitVec 16) (code unit : Nibble) (tilt : Bool) :
    payloadBytes address code unit tilt =
      [address.toNat / 256, address.toNat % 256, code.toNat * 16 + unit.toNat, if tilt then 0x10 else 0x00].map
        (BitVec.ofNat 8) := by
  have haddress := address.isLt
  have high : (address >>> 8 &&& 0xFF).setWidth 8 = BitVec.ofNat 8 (address.toNat / 256) := by
    apply BitVec.eq_of_toNat_eq
    simp [Nat.shiftRight_eq_div_pow, Nat.and_two_pow_sub_one_eq_mod _ 8]
  have low : (address &&& 0xFF).setWidth 8 = BitVec.ofNat 8 (address.toNat % 256) := by
    apply BitVec.eq_of_toNat_eq
    simp [Nat.and_two_pow_sub_one_eq_mod _ 8]
  have codeAndUnit : byteOfNibbles code unit &&& 0xFF = BitVec.ofNat 8 (code.toNat * 16 + unit.toNat) := by
    rw [← byteOfNibbles_eq_ofNat]
    exact BitVec.and_allOnes
  have byte3 : (if tilt then 0x10 else 0x00 : Byte) = BitVec.ofNat 8 (if tilt then 0x10 else 0x00) := by
    cases tilt <;> rfl
  simp only [payloadBytes, high, low, codeAndUnit, byte3, List.map]

/-- FENC looks at the address, the selected name, the unit and whether a tilt flag is set, and at nothing else. -/
theorem bytesFromFrame_congr {o o' : DataObject} (haddress : o.address = o'.address)
    (hname : selectName o = selectName o') (hunit : o.unit = o'.unit) (htilt : isTilt o = isTilt o') :
    bytesFromFrame o = bytesFromFrame o' := by
  simp only [bytesFromFrame, haddress, hname, hunit, htilt]

/-- A tilt flag selects the name, whatever `cmd` and `state` hold (R131 lines 3 to 5). -/
theorem selectName_of_tilt {o : DataObject} (htilt : (o.tiltUp || o.tiltDown) = true) :
    selectName o = some (if o.tiltUp then .up else .down) := by
  cases hup : o.tiltUp with
  | true => simp [selectName, hup]
  | false =>
    have hdown : o.tiltDown = true := by simpa [hup] using htilt
    simp [selectName, hup, hdown]

/-! ### The decoded requests and the answers -/

/-- Select 0x7 within MAXBYTES names FDEC (R73). -/
theorem decode_fdec {r : Request} (hop : r.op = 0x7) (hn : r.n ≤ Config.maxBytes) :
    decode (.request r) = .ok (.fdec (bytesOfVector r.n r.seq)) := by
  simp [decode, decodeRequest, withBytes, hop, hn]

/-- Select 0x8 names FENC (R73). -/
theorem decode_fenc {r : Request} (hop : r.op = 0x8) : decode (.request r) = .ok (.fenc (unpackObj r.obj)) := by
  simp [decode, decodeRequest, hop]

/-- FDEC answers a malformed sequence with reason 1. -/
theorem exec_fdec_of_malformed {bytes : List Byte} {s : State}
    (h : frameFromBytes bytes = .error .malformedPayload) :
    exec (.fdec bytes) s = .next (s.answer (noResult 1)) := by
  rw [exec_fdec, h]
  rfl

/-- FDEC answers a frame whose code it knows with the object. -/
theorem exec_fdec_of_code {bytes : List Byte} {s : State} {code : Nat} {m : CmdName} (hlen : ¬ bytes.length < 5)
    (hverified : ¬ verifies bytes = false) (hcode : (bytes.getD 2 0).toNat / 16 = code)
    (hname : nameForCode (BitVec.ofNat 4 code) = .ok m) :
    exec (.fdec bytes) s =
      .next (s.answer (objectResult (addMotion m (bytes.getD 3 0) (numberedObject bytes m)))) := by
  rw [← hcode, ← highNibble_eq_ofNat] at hname
  rw [exec_fdec, frameFromBytes_of_nameForCode_ok (Nat.le_of_not_lt hlen)
    (Bool.eq_true_of_not_eq_false hverified) hname]
  rfl

/-- FENC answers an object it cannot encode with reason 3. -/
theorem exec_fenc_of_error {o : DataObject} {s : State} {e : Reason} (h : bytesFromFrame o = .error e) :
    exec (.fenc o) s = .next (s.answer (noResult 3)) := by
  rw [exec_fenc, h, bytesFromFrame_error h]
  rfl

/-- The five-byte response of FENC, its payload computed as numbers (R131 lines 10, 11). -/
def fencResponse (o : DataObject) (address : BitVec 16) (code : Nat) : Rsp :=
  let payload : List Byte := [address.toNat / 256, address.toNat % 256, code * 16 + (o.unit.getD 0).toNat,
    if o.tiltUp || o.tiltDown then 0x10 else 0x00].map (BitVec.ofNat 8)
  { zeroRsp with ok := true, n := 5, seq := vectorOfBytes (payload ++ [csum payload]) }

/-- FENC answers an object with an address and a name of the table with the five bytes. -/
theorem exec_fenc_of_code {o : DataObject} {s : State} {address : BitVec 16} {code : Nat}
    (haddress : o.address = some address) (hcode : codeForName (selectName o) = .ok (BitVec.ofNat 4 code))
    (hlt : code < 16) :
    exec (.fenc o) s = .next (s.answer (fencResponse o address code)) := by
  rw [exec_fenc, bytesFromFrame_of_codeForName_ok haddress hcode, payloadBytes_eq_map_ofNat,
    BitVec.toNat_ofNat, Nat.mod_eq_of_lt (show code < 2 ^ 4 from hlt)]
  rfl

/-! ### The obligations -/

/-- Settles O37: too short, not verified, then the five codes and every other one. -/
theorem fdecDecodesTheFrame : Obligations.FdecDecodesTheFrame := by
  refine ⟨fun r => decode_fdec, fun bytes s => ?_⟩
  intro b address unit o
  split_ifs with hlen hverified up upTilt down downTilt idle confirm setLimit
  · exact exec_fdec_of_malformed (frameFromBytes_of_short hlen)
  · exact exec_fdec_of_malformed (frameFromBytes_of_not_verified hverified)
  · rw [exec_fdec_of_code hlen hverified up nameForCode_up, addMotion_up, if_pos upTilt]
    rfl
  · rw [exec_fdec_of_code hlen hverified up nameForCode_up, addMotion_up, if_neg upTilt]
    rfl
  · rw [exec_fdec_of_code hlen hverified down nameForCode_down, addMotion_down, if_pos downTilt]
    rfl
  · rw [exec_fdec_of_code hlen hverified down nameForCode_down, addMotion_down, if_neg downTilt]
    rfl
  · rw [exec_fdec_of_code hlen hverified idle nameForCode_idle]
    rfl
  · rw [exec_fdec_of_code hlen hverified confirm nameForCode_confirm]
    rfl
  · rw [exec_fdec_of_code hlen hverified setLimit nameForCode_setLimit]
    rfl
  · have notCode (c : Nibble) (h : ¬ (bytes.getD 2 0).toNat / 16 = c.toNat) : highNibble (bytes.getD 2 0) ≠ c :=
      mt (toNat_div_eq_iff_highNibble _ _).mpr h
    have unmapped := nameForCode_of_unmapped (notCode 0xC up) (notCode 0x1 down) (notCode 0x5 idle)
      (notCode 0x4 confirm) (notCode 0x2 setLimit)
    rw [exec_fdec, frameFromBytes_of_nameForCode_error (Nat.le_of_not_lt hlen)
      (Bool.eq_true_of_not_eq_false hverified) unmapped]
    rfl

/-- Settles O38: no address, then the selected name by its rows of the table and outside them. -/
theorem fencEncodesTheObject : Obligations.FencEncodesTheObject := by
  refine ⟨fun r => decode_fenc, fun o s => ?_⟩
  intro name unit byte3 send
  have hselect : selectName o = name := by
    cases hcmd : o.cmd <;> simp [name, selectName, hcmd]
  cases haddress : o.address with
  | none => exact exec_fenc_of_error (bytesFromFrame_of_address_none haddress)
  | some a =>
    have hit {m : Option CmdName} (code : Nat) (hlt : code < 16) (hm : selectName o = m)
        (hcode : codeForName m = .ok (BitVec.ofNat 4 code)) : exec (.fenc o) s = .next (s.answer (send a code)) :=
      exec_fenc_of_code haddress (hm ▸ hcode) hlt
    have miss {m : Option CmdName} (hm : selectName o = m) (hcode : codeForName m = .error .noMatch) :
        exec (.fenc o) s = .next (s.answer (noResult 3)) :=
      exec_fenc_of_error (bytesFromFrame_of_codeForName_error (hm ▸ hcode))
    clear_value name
    match name, hselect with
    | some .up, h => exact hit 0xC (by decide) h codeForName_up
    | some .down, h => exact hit 0x1 (by decide) h codeForName_down
    | some .idle, h => exact hit 0x5 (by decide) h codeForName_idle
    | some .confirm, h => exact hit 0x4 (by decide) h codeForName_confirm
    | some .setLimit, h => exact hit 0x2 (by decide) h codeForName_setLimit
    | some .my, h => exact miss h codeForName_my
    | some .deepUp, h => exact miss h codeForName_deepUp
    | some .deepDown, h => exact miss h codeForName_deepDown
    | some (.other k), h => exact miss h (codeForName_other k)
    | none, h => exact miss h codeForName_none

/-- Settles O41: the five forms of a decoded object, and the name a tilt flag selects. -/
theorem travelAndTiltAreExclusive : Obligations.TravelAndTiltAreExclusive := by
  refine ⟨fun bytes d hdecoded => ?decoded, fun o c st htilt => ?suppressed⟩
  case decoded =>
    obtain ⟨b0, b1, b2, b3, _, _, name, _, _, _, rfl⟩ := frameFromBytes_ok hdecoded
    rcases addMotion_cases name b3 (frameObject (addressOfBytes b0 b1) (lowNibble b2) name) with
      h | h | h | h | h <;> rw [h] <;> simp [frameObject]
  case suppressed =>
    have sameName : selectName { o with cmd := c, state := st } = selectName o := by
      rw [selectName_of_tilt htilt, selectName_of_tilt (o := { o with cmd := c, state := st }) htilt]
    exact bytesFromFrame_congr rfl sameName rfl rfl

end Sys2Proof.Machine

/-!
The Settings Normalizer (spec/44_settings_normalizer.md R150 to R154): the two swaps of a name by its value, each
rewrite of an object field by field, NORM for each direction, then obligations O44 to O48.
-/

namespace Sys2Proof.Machine

/-! ### The swaps of a name -/

@[simp] theorem swapUD_up : swapUD (some .up) = some .down := rfl

@[simp] theorem swapUD_down : swapUD (some .down) = some .up := rfl

/-- `swapUD` touches no other name. -/
theorem swapUD_of_ne {v : Option CmdName} (hup : v ≠ some .up) (hdown : v ≠ some .down) : swapUD v = v := by
  unfold swapUD
  split
  · exact absurd rfl hup
  · exact absurd rfl hdown
  · rfl

theorem swapUD_eq_ite (v : Option CmdName) :
    swapUD v = if v = some .up then some .down else if v = some .down then some .up else v := by
  split_ifs with hup hdown
  · rw [hup, swapUD_up]
  · rw [hdown, swapUD_down]
  · exact swapUD_of_ne hup hdown

@[simp] theorem swapDeep_deepUp : swapDeep (some .deepUp) = some .deepDown := rfl

@[simp] theorem swapDeep_deepDown : swapDeep (some .deepDown) = some .deepUp := rfl

/-- `swapDeep` touches no other name. -/
theorem swapDeep_of_ne {v : Option CmdName} (hup : v ≠ some .deepUp) (hdown : v ≠ some .deepDown) :
    swapDeep v = v := by
  unfold swapDeep
  split
  · exact absurd rfl hup
  · exact absurd rfl hdown
  · rfl

/-- `swapUD` makes a name into another only between `up` and `down`. -/
theorem swapUD_eq_iff_of_ne {v w : Option CmdName} (hup : w ≠ some .up) (hdown : w ≠ some .down) :
    swapUD v = w ↔ v = w := by
  rw [swapUD_eq_ite]
  split_ifs with h h <;> simp [h, hup.symm, hdown.symm]

/-- The two swaps act on different names, so each name of the composite is swapped by its own value (R151). -/
theorem swapDeep_swapUD (v : Option CmdName) :
    swapDeep (swapUD v) =
      if v = some .deepUp then some .deepDown else if v = some .deepDown then some .deepUp else swapUD v := by
  split_ifs with hup hdown
  · rw [hup, swapUD_of_ne (by simp) (by simp), swapDeep_deepUp]
  · rw [hdown, swapUD_of_ne (by simp) (by simp), swapDeep_deepDown]
  · exact swapDeep_of_ne (mt (swapUD_eq_iff_of_ne (by simp) (by simp)).mp hup)
      (mt (swapUD_eq_iff_of_ne (by simp) (by simp)).mp hdown)

/-! ### The rewrites of an object -/

/-- Without a moving `state`, synthesis sets `tilt` from the flags and no other field (R150). -/
theorem synthesize_of_still {o : DataObject} (h : o.state = none ∨ o.state = some .idle) : synthesize o =
    { o with tilt := if o.tiltUp then some .up else if o.tiltDown then some .down else o.tilt } := by
  have hguard : (o.state.isSome && o.state != some .idle) = false := by
    rcases h with h | h <;> rw [h] <;> rfl
  simp only [synthesize, hguard, Bool.false_eq_true, if_false]
  split_ifs <;> rfl

/-- With a moving `state`, synthesis also sets `direction` to it (R150). -/
theorem synthesize_of_moving {o : DataObject} {m : CmdName} (hstate : o.state = some m) (hm : m ≠ .idle) :
    synthesize o =
      { o with
        direction := some m
        tilt := if o.tiltUp then some .up else if o.tiltDown then some .down else o.tilt } := by
  have hguard : (o.state.isSome && o.state != some .idle) = true := by simp [hstate, hm]
  simp only [synthesize, hguard, if_true, ← hstate]
  split_ifs <;> rfl

/-- Rotation swaps `cmd` by its own value, the deep-travel aliases outbound only (R151). -/
theorem rotate_cmd (o : DataObject) (d : Direction) : (rotate o d).cmd =
    if d = .outbound ∧ o.cmd = some .deepUp then some .deepDown
    else if d = .outbound ∧ o.cmd = some .deepDown then some .deepUp else swapUD o.cmd := by
  cases d with
  | inbound => simp [rotate]
  | outbound => simp [rotate, swapDeep_swapUD]

/-- The alias rewrites an object whose `cmd` is `my` (R153). -/
theorem resolveMy_of_my {o : DataObject} (h : o.cmd = some .my) :
    resolveMy o = { o with state := some .idle, cmd := none } :=
  if_pos h

/-- The alias leaves every other object as it is (R153). -/
theorem resolveMy_of_ne_my {o : DataObject} (h : o.cmd ≠ some .my) : resolveMy o = o :=
  if_neg h

/-- Inbound, synthesis comes first, under `pairing`, and the alias not at all (R154). -/
theorem normalizeObject_inbound (o : DataObject) (rot inv pair : Bool) :
    normalizeObject o ⟨rot, inv, .inbound, pair⟩ =
      let synthesized := if pair then synthesize o else o
      let rotated := if rot then rotate synthesized .inbound else synthesized
      if inv then invertTilt rotated else rotated := by
  simp [normalizeObject]

/-- Outbound, `pairing` has no effect and the alias comes last (R154). -/
theorem normalizeObject_outbound (o : DataObject) (rot inv pair : Bool) :
    normalizeObject o ⟨rot, inv, .outbound, pair⟩ =
      let rotated := if rot then rotate o .outbound else o
      resolveMy (if inv then invertTilt rotated else rotated) := by
  simp [normalizeObject]

/-! ### The decoded requests and the answers -/

section Requests

variable {r : Request}

/-- Select 0xF names PSYN (R73). -/
theorem decode_psyn (hop : r.op = 0xF) : decode (.request r) = .ok (.psyn (unpackObj r.obj)) := by
  simp [decode, decodeRequest, hop]

/-- Select 0xC names ROT (R73). -/
theorem decode_rot (hop : r.op = 0xC) :
    decode (.request r) = .ok (.rot (unpackObj r.obj) (unpackCtl r.ctl)) := by
  simp [decode, decodeRequest, hop]

/-- Select 0xD names TINV (R73). -/
theorem decode_tinv (hop : r.op = 0xD) : decode (.request r) = .ok (.tinv (unpackObj r.obj)) := by
  simp [decode, decodeRequest, hop]

/-- Select 0xE names ALIAS (R73). -/
theorem decode_legacyAlias (hop : r.op = 0xE) : decode (.request r) = .ok (.legacyAlias (unpackObj r.obj)) := by
  simp [decode, decodeRequest, hop]

/-- Select 0x9 names NORM (R73). -/
theorem decode_norm (hop : r.op = 0x9) :
    decode (.request r) = .ok (.norm (unpackObj r.obj) (unpackCtl r.ctl)) := by
  simp [decode, decodeRequest, hop]

end Requests

theorem exec_psyn (o : DataObject) (s : State) :
    exec (.psyn o) s = .next (s.answer (objectResult (synthesize o))) := rfl

theorem exec_rot (o : DataObject) (ctl : Ctl) (s : State) :
    exec (.rot o ctl) s = .next (s.answer (objectResult (rotate o ctl.dir))) := rfl

theorem exec_tinv (o : DataObject) (s : State) :
    exec (.tinv o) s = .next (s.answer (objectResult (invertTilt o))) := rfl

theorem exec_legacyAlias (o : DataObject) (s : State) :
    exec (.legacyAlias o) s = .next (s.answer (objectResult (resolveMy o))) := rfl

theorem exec_norm (o : DataObject) (ctl : Ctl) (s : State) :
    exec (.norm o ctl) s = .next (s.answer (objectResult (normalizeObject o ctl))) := rfl

/-! ### The obligations -/

/-- Settles O44: the direction for an absent, an idle and any other `state`. -/
theorem psynSetsTheMirrors : Obligations.PsynSetsTheMirrors := by
  refine ⟨fun r => decode_psyn, fun o s => ?_⟩
  rw [exec_psyn]
  split
  case h_1 hnone => rw [synthesize_of_still (.inl hnone)]
  case h_2 hidle => rw [synthesize_of_still (.inr hidle)]
  case h_3 m hnotIdle hstate => rw [synthesize_of_moving hstate hnotIdle]

/-- Settles O45: the obligation's swap of a name is `swapUD`, and `cmd` alone depends on the direction. -/
theorem rotSwapsEveryAxis : Obligations.RotSwapsEveryAxis := by
  refine ⟨fun r hop => ⟨decode_rot hop, rfl⟩, fun o d rot inv pair s => ⟨rotate o d, exec_rot o _ s, ?_⟩⟩
  intro swapped
  have hswapped : swapped = swapUD := (funext swapUD_eq_ite).symm
  rw [hswapped, ← rotate_cmd]
  rfl

/-- Settles O46: the swap of `tilt` by its value. -/
theorem tinvSwapsTheTiltAxis : Obligations.TinvSwapsTheTiltAxis := by
  refine ⟨fun r => decode_tinv, fun o s => ?_⟩
  rw [exec_tinv, ← swapUD_eq_ite]
  rfl

/-- Settles O47: `cmd` is `my`, or it is not. -/
theorem legacyNameIsResolved : Obligations.LegacyNameIsResolved := by
  refine ⟨fun r => decode_legacyAlias, fun o s => ?_⟩
  rw [exec_legacyAlias]
  split
  case h_1 hmy => rw [resolveMy_of_my hmy]
  case h_2 hother => rw [resolveMy_of_ne_my hother]

/-- Settles O48: the normalization function for each direction. -/
theorem normAppliesTheStepsInOrder : Obligations.NormAppliesTheStepsInOrder := by
  refine ⟨fun r => decode_norm, fun o rot inv pair s => ⟨?inbound, ?outbound⟩⟩
  case inbound => rw [exec_norm, normalizeObject_inbound]
  case outbound => rw [exec_norm, normalizeObject_outbound]

end Sys2Proof.Machine

/-!
The pipelines (spec/45_pipelines.md R170, R171): the bits of whole bytes regrouped, the outcomes and the length that
FDEC and FENC can have, RX and TX as the composition of their stages, then obligations O52 and O53.
-/

namespace Sys2Proof.Machine

/-! ### What the stages hand on -/

/-- B2BY undoes BY2B: the same bytes, and no residue (R102). -/
theorem bitsToBytes_bytesToBits (bytes : List Byte) : bitsToBytes (bytesToBits bytes) = (bytes, []) := by
  induction bytes with
  | nil => rfl
  | cons b bytes ih => simpa [bitsOfByte, ih] using byteOfBits_bitsOfByte b

/-- FDEC's only failures (R181, R182). -/
theorem frameFromBytes_error {bytes : List Byte} {e : Reason} (h : frameFromBytes bytes = .error e) :
    e = .malformedPayload ∨ e = .unknownCommandCode := by
  by_cases hlen : bytes.length < 5
  · exact .inl (Except.error.inj (h.symm.trans (frameFromBytes_of_short hlen)))
  cases hverified : verifies bytes with
  | false => exact .inl (Except.error.inj (h.symm.trans (frameFromBytes_of_not_verified hverified)))
  | true =>
    cases hname : nameForCode (highNibble (bytes.getD 2 0)) with
    | ok m => simp [frameFromBytes_of_nameForCode_ok (Nat.le_of_not_lt hlen) hverified hname] at h
    | error e' =>
      have unknown := frameFromBytes_of_nameForCode_error (Nat.le_of_not_lt hlen) hverified hname
      exact .inr (Except.error.inj (h.symm.trans unknown))

/-- FENC gives five bytes or nothing (R131). -/
theorem bytesFromFrame_length {o : DataObject} {bytes : List Byte} (h : bytesFromFrame o = .ok bytes) :
    bytes.length = 5 := by
  obtain ⟨address, code, _, _, rfl⟩ := bytesFromFrame_ok h
  rfl

/-- Outbound there is no synthesis, so `pairing` does not count (R154, R171). -/
theorem normalizeObject_outbound_pairing (o : DataObject) (rot inv pair pair' : Bool) :
    normalizeObject o ⟨rot, inv, .outbound, pair⟩ = normalizeObject o ⟨rot, inv, .outbound, pair'⟩ := by
  rw [normalizeObject_outbound, normalizeObject_outbound]

/-! ### RX and TX by their stages -/

/-- A short trailing group ends RX before FDEC (R170 line 2). -/
theorem receive_of_residue {bits : List Bool} {ctl : Ctl} (h : bits.length % 8 ≠ 0) :
    receive bits ctl = .error .malformedPayload := by
  rw [← bitsToBytes_residue_length] at h
  exact if_pos h

/-- Without a residue RX is FDEC on the bytes, then NORM inbound (R170 lines 3, 4). -/
theorem receive_of_aligned {bits : List Bool} (ctl : Ctl) (h : bits.length % 8 = 0) :
    receive bits ctl =
      (frameFromBytes (bitsToBytes bits).1).map (normalizeObject · { ctl with dir := .inbound }) := by
  rw [← bitsToBytes_residue_length] at h
  simp only [receive, h, ne_eq, not_true_eq_false, if_false]
  cases frameFromBytes (bitsToBytes bits).1 <;> rfl

/-- RX on the wire bits of a byte sequence. -/
theorem receive_bytesToBits (bytes : List Byte) (ctl : Ctl) :
    receive (bytesToBits bytes) ctl =
      (frameFromBytes bytes).map (normalizeObject · { ctl with dir := .inbound }) := by
  rw [receive_of_aligned ctl (by simp), bitsToBytes_bytesToBits]

/-- Fewer than 40 bits are no frame, with or without a residue (R170). -/
theorem receive_of_short {bits : List Bool} {ctl : Ctl} (h : bits.length < 40) :
    receive bits ctl = .error .malformedPayload := by
  by_cases aligned : bits.length % 8 = 0
  · have tooFew : (bitsToBytes bits).1.length < 5 := by
      rw [bitsToBytes_bytes_length]
      omega
    rw [receive_of_aligned ctl aligned, frameFromBytes_of_short tooFew]
    rfl
  · exact receive_of_residue aligned

/-- TX is FENC on the object of NORM outbound, then BY2B (R171). -/
theorem transmit_eq_map (o : DataObject) (ctl : Ctl) :
    transmit o ctl = (bytesFromFrame (normalizeObject o { ctl with dir := .outbound })).map bytesToBits := by
  unfold transmit
  cases bytesFromFrame (normalizeObject o { ctl with dir := .outbound }) <;> rfl

/-! ### The decoded requests and the answers -/

/-- Select 0xA within MAXBITS names RX (R73). -/
theorem decode_rx {r : Request} (hop : r.op = 0xA) (hn : r.n ≤ Config.maxBits) :
    decode (.request r) = .ok (.rx (bitsOfVector r.n r.seq) (unpackCtl r.ctl)) := by
  simp [decode, decodeRequest, withBits, hop, hn]

/-- Select 0xB names TX (R73). -/
theorem decode_tx {r : Request} (hop : r.op = 0xB) :
    decode (.request r) = .ok (.tx (unpackObj r.obj) (unpackCtl r.ctl)) := by
  simp [decode, decodeRequest, hop]

theorem exec_rx (bits : List Bool) (ctl : Ctl) (s : State) :
    exec (.rx bits ctl) s = .next (s.reply rspObject (receive bits ctl)) := rfl

theorem exec_tx (o : DataObject) (ctl : Ctl) (s : State) :
    exec (.tx o ctl) s = .next (s.reply rspBits (transmit o ctl)) := rfl

/-! ### The obligations -/

/-- Settles O52: a residue or too few bits, then FDEC's outcomes on the bytes. -/
theorem rxChainsTheInboundStages : Obligations.RxChainsTheInboundStages := by
  refine ⟨fun r => decode_rx, fun bits ctl s hmalformed => ?malformed, fun bytes ctl s => ?aligned⟩
  case malformed =>
    have outcome : receive bits ctl = .error .malformedPayload :=
      hmalformed.elim receive_of_residue receive_of_short
    rw [exec_rx, outcome]
    rfl
  case aligned =>
    rw [exec_rx, receive_bytesToBits]
    cases hdecoded : frameFromBytes bytes with
    | ok d => rfl
    | error e => obtain rfl | rfl := frameFromBytes_error hdecoded <;> rfl

/-- Settles O53: `pairing` set to 0 in NORM outbound, then FENC's two outcomes. -/
theorem txChainsTheOutboundStages : Obligations.TxChainsTheOutboundStages := by
  refine ⟨fun r => decode_tx, fun o ctl s => ?_⟩
  rw [exec_tx, transmit_eq_map, normalizeObject_outbound_pairing o _ _ _ false]
  cases hencoded : bytesFromFrame (normalizeObject o ⟨ctl.rot180, ctl.invertTilt, .outbound, false⟩) with
  | ok bytes =>
    have bitCount : (bytesToBits bytes).length = 40 := by
      rw [bytesToBits_length, bytesFromFrame_length hencoded]
    simp [Except.map, rspBits, rspOk, zeroRsp, bitCount]
  | error e =>
    rw [bytesFromFrame_error hencoded]
    rfl

end Sys2Proof.Machine

/-!
The no-result outcomes (spec/60_exceptions.md R180, R185): what every no-result response holds, then obligation O26.
-/

namespace Sys2Proof.Machine

/-! ### The decoded request and the answer -/

/-- A no-result response holds its reason code and zeros (R180). -/
theorem rspNoResult_eq_noResult (e : Reason) : rspNoResult e = noResult (reasonCode e) := rfl

/-- Select 0x0 names the reserved operation, which reads no other port (R73). -/
theorem decode_reserved {r : Request} (hop : r.op = 0x0) : decode (.request r) = .ok .reserved := by
  simp [decode, decodeRequest, hop]

theorem exec_reserved (s : State) : exec .reserved s = .next (s.raise .badOp) := rfl

/-! ### The obligation -/

/-- Settles O26: the reserved select raises BadOp, whose reason code is 5. -/
theorem reservedSelectAnswersBadOp : Obligations.ReservedSelectAnswersBadOp := by
  refine ⟨fun _ => decode_reserved, fun s => ?answer⟩
  case answer => rw [exec_reserved, raise_eq_answer, rspNoResult_eq_noResult, reasonCode]

end Sys2Proof.Machine

/-!
Encode and decode (spec/30_encoding.md R60, R61, R63, R70, R73, R75, section 7): the elements of a sequence vector,
the fields of a frame and of its table word, the decoder on given fields, the lengths the decoder refuses, then
obligations O1 to O7 and O10.
-/

namespace Sys2Proof.Machine

/-! ### The elements of a sequence vector (R75) -/

@[simp] theorem bitsOfVector_zero (v : Nat) : bitsOfVector 0 v = [] := rfl

@[simp] theorem bitsOfVector_succ (n v : Nat) :
    bitsOfVector (n + 1) v = v.testBit 0 :: bitsOfVector n (v / 2) := rfl

@[simp] theorem bytesOfVector_zero (v : Nat) : bytesOfVector 0 v = [] := rfl

@[simp] theorem bytesOfVector_succ (n v : Nat) :
    bytesOfVector (n + 1) v = BitVec.ofNat 8 v :: bytesOfVector n (v / 256) := rfl

@[simp] theorem bitsOfVector_length (n v : Nat) : (bitsOfVector n v).length = n := by
  induction n generalizing v with
  | zero => rfl
  | succ n ih => simp [ih]

@[simp] theorem bytesOfVector_length (n v : Nat) : (bytesOfVector n v).length = n := by
  induction n generalizing v with
  | zero => rfl
  | succ n ih => simp [ih]

/-- Element `i` of a bit sequence is vector bit `i`. -/
theorem getElem?_bitsOfVector (v : Nat) {n i : Nat} (hi : i < n) : (bitsOfVector n v)[i]? = some (v.testBit i) := by
  induction n generalizing v i with
  | zero => omega
  | succ n ih =>
    cases i with
    | zero => simp
    | succ i => simp [ih (v / 2) (Nat.lt_of_succ_lt_succ hi), Nat.testBit_add_one]

/-- Byte `k` of a byte sequence is the vector shifted down by `k` bytes. -/
theorem getElem?_bytesOfVector (v : Nat) {n k : Nat} (hk : k < n) :
    (bytesOfVector n v)[k]? = some (BitVec.ofNat 8 (v >>> (8 * k))) := by
  induction n generalizing v k with
  | zero => omega
  | succ n ih =>
    cases k with
    | zero => simp
    | succ k =>
      have shifted : v >>> (8 * (k + 1)) = (v / 256) >>> (8 * k) := by
        rw [Nat.mul_succ, Nat.add_comm, Nat.shiftRight_add, Nat.shiftRight_eq_div_pow v 8]
      simp [ih (v / 256) (Nat.lt_of_succ_lt_succ hk), shifted]

/-- Bit `j` of byte `k` is bit `8k + j` of the vector. -/
theorem testBit_vectorOfBytes (bytes : List Byte) (k : Nat) {j : Nat} (hj : j < 8) :
    (vectorOfBytes bytes).testBit (8 * k + j) = (bytes.getD k 0).getLsbD j := by
  rw [← vectorOfBits_bytesToBits, testBit_vectorOfBits, getD_bytesToBits bytes k hj]

/-- A bit sequence reads back from its own vector. -/
@[simp] theorem bitsOfVector_vectorOfBits (bits : List Bool) : bitsOfVector bits.length (vectorOfBits bits) = bits := by
  induction bits with
  | nil => rfl
  | cons b bits ih =>
    have low : (b.toNat + 2 * vectorOfBits bits).testBit 0 = b := by cases b <;> simp
    have high : (b.toNat + 2 * vectorOfBits bits) / 2 = vectorOfBits bits := by
      have := b.toNat_le
      omega
    rw [List.length_cons, vectorOfBits_cons, bitsOfVector_succ, low, high, ih]

/-- A byte sequence reads back from its own vector. -/
@[simp] theorem bytesOfVector_vectorOfBytes (bytes : List Byte) :
    bytesOfVector bytes.length (vectorOfBytes bytes) = bytes := by
  induction bytes with
  | nil => rfl
  | cons b bytes ih =>
    have hb := b.isLt
    have low : BitVec.ofNat 8 (b.toNat + 256 * vectorOfBytes bytes) = b := by
      apply BitVec.eq_of_toNat_eq
      rw [BitVec.toNat_ofNat]
      omega
    have high : (b.toNat + 256 * vectorOfBytes bytes) / 256 = vectorOfBytes bytes := by omega
    rw [List.length_cons, vectorOfBytes_cons, bytesOfVector_succ, low, high, ih]

/-! ### The fields of a frame (R60) -/

/-- A frame is the frame of its own fields. -/
theorem frameOfFields_fields (f : WireFrame) :
    frameOfFields (addressOfBytes f.b0 f.b1) (highNibble f.b2) (lowNibble f.b2) (highNibble f.b3) (lowNibble f.b3)
      f.b4 = f := by
  simp [frameOfFields]

/-- Bit `i` of the low nibble is bit `i` of the byte (R7). -/
theorem getLsbD_lowNibble (b : Byte) {i : Nat} (hi : i < 4) : (lowNibble b).getLsbD i = b.getLsbD i := by
  simp [lowNibble, hi]

/-- Bit `i` of the high nibble is bit `4 + i` of the byte (R7). -/
theorem getLsbD_highNibble (b : Byte) {i : Nat} (hi : i < 4) : (highNibble b).getLsbD i = b.getLsbD (4 + i) := by
  simp [highNibble, hi]

/-- The rows of the frame table over the fields of a frame, most specific first (section 7). -/
def decodeFields (address : BitVec 16) (code unit tilt unused : Nibble) (checksum : Byte) :
    Except DecodeError Instr :=
  if code = 0xC ∧ tilt = 1 then .ok (.upT address unit unused checksum)
  else if code = 0x1 ∧ tilt = 1 then .ok (.downT address unit unused checksum)
  else if code = 0xC then .ok (.up address unit tilt unused checksum)
  else if code = 0x1 then .ok (.down address unit tilt unused checksum)
  else if code = 0x5 then .ok (.idle address unit tilt unused checksum)
  else if code = 0x4 then .ok (.confirm address unit tilt unused checksum)
  else if code = 0x2 then .ok (.setLimit address unit tilt unused checksum)
  else .error (.unmappedCode (frameOfFields address code unit tilt unused checksum))

theorem decode_wire_eq_decodeFields (f : WireFrame) :
    decode (.wire f) = decodeFields (addressOfBytes f.b0 f.b1) (highNibble f.b2) (lowNibble f.b2) (highNibble f.b3)
      (lowNibble f.b3) f.b4 := by
  rw [decodeFields, frameOfFields_fields]
  rfl

/-- The decoder reads from a frame the fields it was made of. -/
@[simp] theorem decode_wire_frameOfFields (address : BitVec 16) (code unit tilt unused : Nibble) (checksum : Byte) :
    decode (.wire (frameOfFields address code unit tilt unused checksum)) =
      decodeFields address code unit tilt unused checksum := by
  rw [decode_wire_eq_decodeFields]
  simp [frameOfFields]

/-- A row the decoder picks is well formed and encodes back to the fields it was read from. -/
theorem decodeFields_ok {address : BitVec 16} {code unit tilt unused : Nibble} {checksum : Byte} {i : Instr}
    (h : decodeFields address code unit tilt unused checksum = .ok i) :
    i.wellFormed = true ∧ encode i = .wire (frameOfFields address code unit tilt unused checksum) := by
  unfold decodeFields at h
  split_ifs at h with upT downT up down idle confirm setLimit <;> obtain rfl := Except.ok.inj h
  · obtain ⟨rfl, rfl⟩ := upT
    exact ⟨rfl, rfl⟩
  · obtain ⟨rfl, rfl⟩ := downT
    exact ⟨rfl, rfl⟩
  · subst up
    exact ⟨by simpa [Instr.wellFormed] using upT, rfl⟩
  · subst down
    exact ⟨by simpa [Instr.wellFormed] using downT, rfl⟩
  · subst idle
    exact ⟨rfl, rfl⟩
  · subst confirm
    exact ⟨rfl, rfl⟩
  · subst setLimit
    exact ⟨rfl, rfl⟩

/-! ### The fields of the table word (R60, section 7) -/

section Word

variable (f : WireFrame)

/-- Bits 39:24 of the table word are the address. -/
theorem word_address : f.word.extractLsb' 24 16 = addressOfBytes f.b0 f.b1 := by
  apply BitVec.eq_of_getLsbD_eq
  intro i hi
  simp only [WireFrame.word, addressOfBytes, BitVec.getLsbD_extractLsb', BitVec.getLsbD_or, getLsbD_place]
  interval_cases i <;> simp [BitVec.getLsbD_of_ge]

/-- Bits 19:16 of the table word are the unit. -/
theorem word_unit : f.word.extractLsb' 16 4 = lowNibble f.b2 := by
  ext i hi
  simp only [WireFrame.word, lowNibble, BitVec.getElem_extractLsb', BitVec.getLsbD_or, getLsbD_place]
  interval_cases i <;> simp [BitVec.getLsbD_of_ge]

/-- Bits 11:8 of the table word are the unused nibble. -/
theorem word_unused : f.word.extractLsb' 8 4 = lowNibble f.b3 := by
  ext i hi
  simp only [WireFrame.word, lowNibble, BitVec.getElem_extractLsb', BitVec.getLsbD_or, getLsbD_place]
  interval_cases i <;> simp [BitVec.getLsbD_of_ge]

/-- Bits 7:0 of the table word are the checksum. -/
theorem word_checksum : f.word.extractLsb' 0 8 = f.b4 := by
  simp [WireFrame.word, BitVec.extractLsb'_or]

/-- The mask of the full-travel rows matches exactly the frames with the row's code. -/
theorem codeMask_eq_iff {pattern : BitVec 40} {code : Nibble} (hrow : place 40 20 code = pattern) :
    f.word &&& 0x0000F00000 = pattern ↔ highNibble f.b2 = code := by
  have inj : ∀ c c' : Nibble, place 40 20 c = place 40 20 c' ↔ c = c' := by decide
  rw [← hrow, and_codeMask, word_code, inj]

/-- The mask of the tilt rows matches exactly the frames with the row's code and tilt nibble. -/
theorem tiltMask_eq_iff {pattern : BitVec 40} {code tilt : Nibble}
    (hrow : place 40 20 code ||| place 40 12 tilt = pattern) :
    f.word &&& 0x0000F0F000 = pattern ↔ highNibble f.b2 = code ∧ highNibble f.b3 = tilt := by
  rw [← hrow, and_tiltMask, word_code, word_tilt]
  refine ⟨fun h => ⟨?code, ?tilt⟩, by rintro ⟨rfl, rfl⟩; rfl⟩
  case code => simpa [BitVec.extractLsb'_or] using congrArg (BitVec.extractLsb' 20 4) h
  case tilt => simpa [BitVec.extractLsb'_or] using congrArg (BitVec.extractLsb' 12 4) h

end Word

/-! ### Requests -/

@[simp] theorem bitsRequest_n (op : Nibble) (bits : List Bool) : (bitsRequest op bits).n = bits.length := rfl

@[simp] theorem bitsRequest_seq (op : Nibble) (bits : List Bool) :
    (bitsRequest op bits).seq = vectorOfBits bits := rfl

@[simp] theorem bytesRequest_n (op : Nibble) (bytes : List Byte) : (bytesRequest op bytes).n = bytes.length := rfl

@[simp] theorem bytesRequest_seq (op : Nibble) (bytes : List Byte) :
    (bytesRequest op bytes).seq = vectorOfBytes bytes := rfl

/-- A length beyond the interface's bounds is refused by name. -/
theorem decode_overlong {r : Request}
    (h : (r.op = 0x1 ∨ r.op = 0xA) ∧ Config.maxBits < r.n ∨
      (r.op = 0x2 ∨ r.op = 0x3 ∨ r.op = 0x4 ∨ r.op = 0x7) ∧ Config.maxBytes < r.n) :
    decode (.request r) = .error (.sequenceTooLong r.n) := by
  obtain ⟨hop | hop, hn⟩ | ⟨hop | hop | hop | hop, hn⟩ := h <;>
    simp [decode, decodeRequest, hop, withBits, withBytes, Nat.not_le.2 hn]

/-- NameCodes from 9 up are the unrecognised names in order (R70). -/
theorem nameOfCode_of_ge : ∀ c : Nibble, 9 ≤ c.toNat → ∃ k, nameOfCode c = some (.other k) ∧ c.toNat = 9 + k.val := by
  decide

/-! ### The obligations -/

/-- Settles O1: a frame is read by the fields it was made of, and each operand of a request from its own port. -/
theorem encodedInstructionDecodesBack : Obligations.EncodedInstructionDecodesBack := by
  intro i hwf
  cases i with
  | upT | downT | idle | confirm | setLimit => exact decode_wire_frameOfFields ..
  | up address unit tilt unused checksum | down address unit tilt unused checksum =>
    have notTilt : tilt ≠ 1#4 := by simpa [Instr.wellFormed] using hwf
    simp [encode, decodeFields, notTilt]
  | reserved => exact decode_reserved rfl
  | b2by bits => exact (decode_b2by (r := bitsRequest 0x1 bits) rfl (of_decide_eq_true hwf)).trans (by simp)
  | rx bits ctl =>
    exact (decode_rx (r := { bitsRequest 0xA bits with ctl := packCtl ctl }) rfl (of_decide_eq_true hwf)).trans
      (by simp)
  | by2b bytes => exact (decode_by2b (r := bytesRequest 0x2 bytes) rfl (of_decide_eq_true hwf)).trans (by simp)
  | csum bytes => exact (decode_csum (r := bytesRequest 0x3 bytes) rfl (of_decide_eq_true hwf)).trans (by simp)
  | verify bytes => exact (decode_verify (r := bytesRequest 0x4 bytes) rfl (of_decide_eq_true hwf)).trans (by simp)
  | fdec bytes => exact (decode_fdec (r := bytesRequest 0x7 bytes) rfl (of_decide_eq_true hwf)).trans (by simp)
  | cmdname code => exact decode_cmdname rfl
  | cmdcode name => exact (decode_cmdcode rfl).trans (by simp)
  | fenc o => exact (decode_fenc rfl).trans (by simp)
  | norm o ctl => exact (decode_norm rfl).trans (by simp)
  | tx o ctl => exact (decode_tx rfl).trans (by simp)
  | rot o ctl => exact (decode_rot rfl).trans (by simp)
  | tinv o => exact (decode_tinv rfl).trans (by simp)
  | legacyAlias o => exact (decode_legacyAlias rfl).trans (by simp)
  | psyn o => exact (decode_psyn rfl).trans (by simp)

/-- Settles O2: the row that is picked encodes the frame's own fields. -/
theorem decodedFrameEncodesBack : Obligations.DecodedFrameEncodesBack := by
  intro f i h
  rw [decode_wire_eq_decodeFields] at h
  have row := decodeFields_ok h
  rwa [frameOfFields_fields] at row

/-- Settles O3: each mask and match tests the code, or the code and the tilt nibble. -/
theorem frameDecodingFollowsTheTableRows : Obligations.FrameDecodingFollowsTheTableRows := by
  intro f w a u t x k
  have upT : w &&& 0x0000F0F000 = 0x0000C01000 ↔ highNibble f.b2 = 0xC ∧ t = 1 := by
    rw [tiltMask_eq_iff f (code := 0xC) (tilt := 1) (by decide), ← word_tilt]
  have downT : w &&& 0x0000F0F000 = 0x0000101000 ↔ highNibble f.b2 = 0x1 ∧ t = 1 := by
    rw [tiltMask_eq_iff f (code := 0x1) (tilt := 1) (by decide), ← word_tilt]
  have up : w &&& 0x0000F00000 = 0x0000C00000 ↔ highNibble f.b2 = 0xC := codeMask_eq_iff f (by decide)
  have down : w &&& 0x0000F00000 = 0x0000100000 ↔ highNibble f.b2 = 0x1 := codeMask_eq_iff f (by decide)
  have idle : w &&& 0x0000F00000 = 0x0000500000 ↔ highNibble f.b2 = 0x5 := codeMask_eq_iff f (by decide)
  have confirm : w &&& 0x0000F00000 = 0x0000400000 ↔ highNibble f.b2 = 0x4 := codeMask_eq_iff f (by decide)
  have setLimit : w &&& 0x0000F00000 = 0x0000200000 ↔ highNibble f.b2 = 0x2 := codeMask_eq_iff f (by decide)
  simp only [upT, downT, up, down, idle, confirm, setLimit]
  rw [decode_wire_eq_decodeFields, decodeFields, frameOfFields_fields, ← word_address, ← word_unit, ← word_unused,
    ← word_checksum, ← word_tilt]

/-- Settles O4: wire bit `8k + i` is bit `i` of byte `k`, and a byte of two nibbles has the low one first. -/
theorem frameFieldsStandInWireOrder : Obligations.FrameFieldsStandInWireOrder := by
  intro a c u t x k bits
  have wire (n : Nat) {i : Nat} (hi : i < 8) :
      bits.getD (8 * n + i) false = ((frameOfFields a c u t x k).bytes.getD n 0).getLsbD i :=
    getD_bytesToBits _ n hi
  refine ⟨by simp [bits, WireFrame.bytes], fun i hi => ?addressHigh, fun i hi => ?addressLow, fun i hi => ?unit,
    fun i hi => ?code, fun i hi => ?unused, fun i hi => ?tilt, fun i hi => ?checksum⟩
  case addressHigh => simpa [frameOfFields, WireFrame.bytes, hi] using wire 0 hi
  case addressLow => simpa [frameOfFields, WireFrame.bytes, hi] using wire 1 hi
  case unit =>
    rw [wire 2 (show i < 8 by omega), ← getLsbD_lowNibble _ hi]
    simp [frameOfFields, WireFrame.bytes]
  case code =>
    rw [show 20 + i = 8 * 2 + (4 + i) by omega, wire 2 (by omega), ← getLsbD_highNibble _ hi]
    simp [frameOfFields, WireFrame.bytes]
  case unused =>
    rw [wire 3 (show i < 8 by omega), ← getLsbD_lowNibble _ hi]
    simp [frameOfFields, WireFrame.bytes]
  case tilt =>
    rw [show 28 + i = 8 * 3 + (4 + i) by omega, wire 3 (by omega), ← getLsbD_highNibble _ hi]
    simp [frameOfFields, WireFrame.bytes]
  case checksum => exact wire 4 hi

/-- Settles O5: by evaluation of the eight words. -/
theorem writtenOutWordsDecode : Obligations.WrittenOutWordsDecode := by
  unfold Obligations.WrittenOutWordsDecode
  decide

/-- Settles O6: one select after another. -/
theorem requestSelectsItsOperation : Obligations.RequestSelectsItsOperation := by
  intro ctl n seq obj nib req o c
  exact ⟨decode_reserved rfl, decode_cmdname rfl, decode_cmdcode rfl, decode_fenc rfl, decode_norm rfl,
    decode_tx rfl, decode_rot rfl, decode_tinv rfl, decode_legacyAlias rfl, decode_psyn rfl,
    fun hn => ⟨decode_b2by rfl hn, decode_rx rfl hn⟩,
    fun hn => ⟨decode_by2b rfl hn, decode_csum rfl hn, decode_verify rfl hn, decode_fdec rfl hn⟩⟩

/-- Settles O7: elements by index, read and written, and the refused lengths. -/
theorem sequenceVectorsCarryElementsByIndex : Obligations.SequenceVectorsCarryElementsByIndex := by
  refine ⟨fun n v => ⟨bitsOfVector_length n v, fun i => getElem?_bitsOfVector v⟩,
    fun n v => ⟨bytesOfVector_length n v, fun k hk => ⟨_, getElem?_bytesOfVector v hk, fun j hj => ?bit⟩⟩,
    testBit_vectorOfBits, fun bytes k j => testBit_vectorOfBytes bytes k, vectorOfBits_bytesToBits,
    fun r => decode_overlong⟩
  case bit => rw [BitVec.getLsbD_ofNat, Nat.testBit_shiftRight, decide_eq_true hj, Bool.true_and]

/-- Settles O10: the named codes one by one, the unrecognised ones, and both inverses. -/
theorem nameCodesNameTheNames : Obligations.NameCodesNameTheNames :=
  ⟨rfl, rfl, rfl, rfl, rfl, rfl, rfl, rfl, rfl, nameOfCode_of_ge, codeOfName_nameOfCode, nameOfCode_codeOfName⟩

end Sys2Proof.Machine

/-!
What an instruction answers (spec/30_encoding.md R71, R74, R75, 60_exceptions.md R180, R186): the two ways a response
can end, the ports each result form fits, both together for every instruction, then obligations O22, O24 and O25.
-/

namespace Sys2Proof.Machine

/-! ### The two ways to end, and the ports of a result -/

/-- A response has a result, or is the no-result response of its reason code, which is at most 5 (R74, R180). -/
structure EndsOneWay (r : Rsp) : Prop where
  reason_eq_zero : r.reason = 0 ↔ r.ok = true
  reason_le : r.reason.toNat ≤ 5
  no_result : r.ok = false → r = noResult r.reason

theorem endsOneWay_of_ok {r : Rsp} (hok : r.ok = true) (hreason : r.reason = 0) : EndsOneWay r where
  reason_eq_zero := by simp [hok, hreason]
  reason_le := by simp [hreason]
  no_result := by simp [hok]

theorem endsOneWay_rspNoResult (e : Reason) : EndsOneWay (rspNoResult e) := by
  cases e <;> exact ⟨by decide, by decide, fun _ => rfl⟩

/-- The object word is canonical, and the sequence and the residue stay within their lengths (R71, R75). -/
structure PortsFit (r : Rsp) : Prop where
  object : packObj (unpackObj r.obj) = r.obj
  sequence : ∃ k, k ≤ Config.maxBytes ∧ r.seq < 2 ^ (8 * k) ∧ (r.n = k ∨ r.n = 8 * k)
  residue : r.res.toNat < 2 ^ r.rn.toNat

/-- The two together are what the handshake invariant says of a response. -/
theorem legalRsp_of_endsOneWay {r : Rsp} (hway : EndsOneWay r) (hfit : PortsFit r) : legalRsp r := by
  refine ⟨hway.reason_eq_zero.symm, fun hfail => ?_, hfit.object, hfit.sequence, hfit.residue⟩
  have nonzero : r.reason ≠ 0 := fun h => by simp [hway.reason_eq_zero.mp h] at hfail
  have codes : ∀ c : BitVec 3, c ≠ 0 → c.toNat ≤ 5 → c ∈ [(1 : BitVec 3), 2, 3, 4, 5] := by decide
  rw [hway.no_result hfail]
  exact List.mem_map_of_mem (f := noResult) (codes r.reason nonzero hway.reason_le)

/-! ### The ports each result form fits -/

theorem vectorOfBits_lt (bits : List Bool) : vectorOfBits bits < 2 ^ bits.length := by
  refine Nat.lt_pow_two_of_testBit _ fun i hi => ?_
  rw [testBit_vectorOfBits, List.getD_eq_default _ _ hi]

theorem vectorOfBytes_lt (bytes : List Byte) : vectorOfBytes bytes < 2 ^ (8 * bytes.length) := by
  rw [← vectorOfBits_bytesToBits, ← bytesToBits_length]
  exact vectorOfBits_lt _

theorem zero_canonical : packObj (unpackObj 0) = 0 := by
  rw [← packObj_empty, unpackObj_packObj]

/-- A response without a sequence and without a residue fits when its object word is canonical. -/
theorem portsFit_of_no_sequence {r : Rsp} (hobj : packObj (unpackObj r.obj) = r.obj) (hn : r.n = 0) (hseq : r.seq = 0)
    (hres : r.res = 0) : PortsFit r where
  object := hobj
  sequence := ⟨0, by simp [hn, hseq]⟩
  residue := by simp [hres]

theorem portsFit_rspNoResult (e : Reason) : PortsFit (rspNoResult e) :=
  portsFit_of_no_sequence zero_canonical rfl rfl rfl

theorem portsFit_rspObject (o : DataObject) : PortsFit (rspObject o) :=
  portsFit_of_no_sequence (congrArg packObj (unpackObj_packObj o)) rfl rfl rfl

theorem portsFit_rspBytes {bytes : List Byte} (h : bytes.length ≤ Config.maxBytes) : PortsFit (rspBytes bytes) where
  object := zero_canonical
  sequence := ⟨bytes.length, h, vectorOfBytes_lt bytes, .inl rfl⟩
  residue := by simp [rspBytes, rspOk]

/-- The wire bits of at most MAXBYTES bytes fit. -/
theorem portsFit_rspBits {bytes : List Byte} (h : bytes.length ≤ Config.maxBytes) :
    PortsFit (rspBits (bytesToBits bytes)) where
  object := zero_canonical
  sequence := by
    refine ⟨bytes.length, h, ?_, .inr (bytesToBits_length bytes)⟩
    exact (vectorOfBits_bytesToBits bytes).trans_lt (vectorOfBytes_lt bytes)
  residue := by simp [rspBits, rspOk]

/-- At most MAXBYTES bytes with a residue of at most seven bits fit. -/
theorem portsFit_rspBytesResidue {r : List Byte × List Bool} (hbytes : r.1.length ≤ Config.maxBytes)
    (hresidue : r.2.length < 8) : PortsFit (rspBytesResidue r) where
  object := zero_canonical
  sequence := ⟨r.1.length, hbytes, vectorOfBytes_lt r.1, .inl rfl⟩
  residue := by
    rw [rspBytesResidue_rn r hresidue]
    exact (Nat.mod_le _ _).trans_lt (vectorOfBits_lt r.2)

/-! ### Every instruction answers -/

/-- `meaning` answers one response in every state; it ends one of the two ways, and its ports fit when `fit` holds. -/
def Answers (meaning : State → Host.Outcome State Fault Refusal) (fit : Prop) : Prop :=
  ∃ r, (∀ s, meaning s = .next (s.answer r)) ∧ EndsOneWay r ∧ (fit → PortsFit r)

theorem answers_result {r : Rsp} {fit : Prop} (hok : r.ok = true) (hreason : r.reason = 0) (hfit : fit → PortsFit r) :
    Answers (fun s => .next (s.answer r)) fit :=
  ⟨r, fun _ => rfl, endsOneWay_of_ok hok hreason, hfit⟩

theorem answers_reply {α : Type} {form : α → Rsp} {fit : Prop} (x : Except Reason α) (hok : ∀ v, (form v).ok = true)
    (hreason : ∀ v, (form v).reason = 0) (hfit : ∀ v, x = .ok v → fit → PortsFit (form v)) :
    Answers (fun s => .next (s.reply form x)) fit := by
  cases x with
  | ok v => exact answers_result (hok v) (hreason v) (hfit v rfl)
  | error e => exact ⟨rspNoResult e, fun _ => rfl, endsOneWay_rspNoResult e, fun _ => portsFit_rspNoResult e⟩

theorem answers_objectReply {fit : Prop} (x : Except Reason DataObject) :
    Answers (fun s => .next (s.reply rspObject x)) fit :=
  answers_reply x (fun _ => rfl) (fun _ => rfl) fun o _ _ => portsFit_rspObject o

theorem answers_object {fit : Prop} (o : DataObject) : Answers (fun s => .next (s.answer (rspObject o))) fit :=
  answers_objectReply (.ok o)

/-- Five bytes fit whatever MAXBYTES is (R13). -/
theorem five_le_maxBytes : 5 ≤ Config.maxBytes := Nat.le_add_left 5 Config.extraBytes

/-- The complete bytes of MAXBITS bits are at most MAXBYTES (R13). -/
theorem bitsToBytes_fits {bits : List Bool} (h : bits.length ≤ Config.maxBits) :
    (bitsToBytes bits).1.length ≤ Config.maxBytes := by
  rw [bitsToBytes_bytes_length]
  unfold Config.maxBits at h
  omega

theorem bitsToBytes_residue_lt (bits : List Bool) : (bitsToBytes bits).2.length < 8 := by
  rw [bitsToBytes_residue_length]
  exact Nat.mod_lt _ (by decide)

/-- TX sends the wire bits of five bytes or nothing (R171). -/
theorem transmit_ok {o : DataObject} {ctl : Ctl} {bits : List Bool} (h : transmit o ctl = .ok bits) :
    ∃ bytes, bytesFromFrame (normalizeObject o { ctl with dir := .outbound }) = .ok bytes ∧
      bytes.length = 5 ∧ bits = bytesToBits bytes := by
  rw [transmit_eq_map] at h
  cases hbytes : bytesFromFrame (normalizeObject o { ctl with dir := .outbound }) with
  | error e => simp [hbytes, Except.map] at h
  | ok bytes =>
    rw [hbytes] at h
    exact ⟨bytes, rfl, bytesFromFrame_length hbytes, (Except.ok.inj h).symm⟩

/-- What every instruction does: it answers, and its response fits the ports when its operands fit the interface. -/
theorem exec_answers (i : Instr) : Answers (exec i) (i.wellFormed = true) := by
  cases i with
  | upT | downT | up | down | idle | confirm | setLimit | fdec | rx => exact answers_objectReply _
  | norm | rot | tinv | legacyAlias | psyn => exact answers_object _
  | reserved => exact ⟨_, fun _ => rfl, endsOneWay_rspNoResult .badOp, fun _ => portsFit_rspNoResult .badOp⟩
  | b2by bits =>
    exact answers_result rfl rfl fun hwf =>
      portsFit_rspBytesResidue (bitsToBytes_fits (of_decide_eq_true hwf)) (bitsToBytes_residue_lt bits)
  | by2b bytes => exact answers_result rfl rfl fun hwf => portsFit_rspBits (of_decide_eq_true hwf)
  | csum | verify => exact answers_result rfl rfl fun _ => portsFit_of_no_sequence zero_canonical rfl rfl rfl
  | cmdname code =>
    exact answers_reply (nameForCode code) (fun _ => rfl) (fun _ => rfl)
      fun _ _ _ => portsFit_of_no_sequence zero_canonical rfl rfl rfl
  | cmdcode name =>
    exact answers_reply (codeForName name) (fun _ => rfl) (fun _ => rfl)
      fun _ _ _ => portsFit_of_no_sequence zero_canonical rfl rfl rfl
  | fenc o =>
    exact answers_reply (bytesFromFrame o) (fun _ => rfl) (fun _ => rfl) fun bytes hbytes _ =>
      portsFit_rspBytes ((bytesFromFrame_length hbytes).trans_le five_le_maxBytes)
  | tx o ctl =>
    refine answers_reply (transmit o ctl) (fun _ => rfl) (fun _ => rfl) fun bits hbits _ => ?_
    obtain ⟨bytes, _, hlen, rfl⟩ := transmit_ok hbits
    exact portsFit_rspBits (hlen.trans_le five_le_maxBytes)

/-! ### The obligations -/

/-- Settles O22: every next state is an answer. -/
theorem instructionsTouchOnlyTheTransaction : Obligations.InstructionsTouchOnlyTheTransaction := by
  intro i s t h
  obtain ⟨r, hexec, _, _⟩ := exec_answers i
  obtain rfl : s.answer r = t := next_inj.mp ((hexec s).symm.trans h)
  exact ⟨rfl, rfl, rfl, rfl, _, rfl, rfl⟩

/-- Settles O24: the response of `exec_answers`. -/
theorem everyInstructionAnswersOneWay : Obligations.EveryInstructionAnswersOneWay := by
  intro i s
  obtain ⟨r, hexec, hway, _⟩ := exec_answers i
  exact ⟨r, hexec s, hway.reason_eq_zero, hway.reason_le, hway.no_result⟩

/-- Settles O25: each of the nine answers a result form, and every other instruction is in the list. -/
theorem nineOperationsAlwaysSucceed : Obligations.NineOperationsAlwaysSucceed := by
  intro s
  have nine : ∀ i : Instr,
      ((∃ x, i = .b2by x) ∨ (∃ x, i = .by2b x) ∨ (∃ x, i = .csum x) ∨ (∃ x, i = .verify x) ∨ (∃ x, i = .psyn x) ∨
        (∃ x d, i = .rot x d) ∨ (∃ x, i = .tinv x) ∨ (∃ x, i = .legacyAlias x) ∨ (∃ x c, i = .norm x c)) →
      ∃ r, exec i s = .next (s.answer r) ∧ r.ok = true ∧ r.reason = 0 := by
    rintro i (⟨x, rfl⟩ | ⟨x, rfl⟩ | ⟨x, rfl⟩ | ⟨x, rfl⟩ | ⟨x, rfl⟩ | ⟨x, d, rfl⟩ | ⟨x, rfl⟩ | ⟨x, rfl⟩ | ⟨x, c, rfl⟩) <;>
      exact ⟨_, rfl, rfl, rfl⟩
  refine ⟨nine, fun i r hexec hfail => ?_⟩
  have notNine := mt (nine i) fun ⟨r', hexec', hok, _⟩ => by
    have same : r' = r := (answer_inj s r' r).mp (next_inj.mp (hexec'.symm.trans hexec))
    simp [← same, hok] at hfail
  cases i with
  | upT | downT | up | down | idle | confirm | setLimit => exact .inl ⟨_, rfl⟩
  | reserved | cmdname | cmdcode | fdec | fenc | rx | tx => simp
  | b2by | by2b | csum | verify | psyn | rot | tinv | legacyAlias | norm => simp at notNine

end Sys2Proof.Machine

/-!
The cycles of the handshake (spec/10_state.md R33, R34, R35, 60_exceptions.md R182, R187): what the decoder answers to
a word, what the block answers to it, a busy block until its response is offered, then obligations O11 to O21 and O23.
-/

namespace Sys2Proof.Machine

/-! ### What the decoder answers to a word -/

/-- A request is read as a well-formed instruction, or refused as too long. -/
def ReadOrTooLong (r : Request) (x : Except DecodeError Instr) : Prop :=
  (∃ i, x = .ok i ∧ i.wellFormed = true) ∨ x = .error (.sequenceTooLong r.n)

theorem withBits_reads (r : Request) {k : List Bool → Instr} (hk : ∀ bits, (k bits).wellFormed = bitsFit bits) :
    ReadOrTooLong r (withBits r k) := by
  unfold withBits
  split_ifs with hn
  · exact .inl ⟨_, rfl, by simp [hk, bitsFit, hn]⟩
  · exact .inr rfl

theorem withBytes_reads (r : Request) {k : List Byte → Instr} (hk : ∀ bytes, (k bytes).wellFormed = bytesFit bytes) :
    ReadOrTooLong r (withBytes r k) := by
  unfold withBytes
  split_ifs with hn
  · exact .inl ⟨_, rfl, by simp [hk, bytesFit, hn]⟩
  · exact .inr rfl

theorem decode_request_reads (r : Request) : ReadOrTooLong r (decode (.request r)) := by
  rw [decode, decodeRequest]
  split
  case h_2 | h_11 => exact withBits_reads r fun _ => rfl
  case h_3 | h_4 | h_5 | h_8 => exact withBytes_reads r fun _ => rfl
  case h_1 | h_6 | h_7 | h_9 | h_10 | h_12 | h_13 | h_14 | h_15 | h_16 => exact .inl ⟨_, rfl, rfl⟩

theorem not_mem_codes_iff {code : Nibble} : code ∉ [0xC, 0x1, 0x5, 0x4, 0x2] ↔
    code ≠ 0xC ∧ code ≠ 0x1 ∧ code ≠ 0x5 ∧ code ≠ 0x4 ∧ code ≠ 0x2 := by
  simp only [List.mem_cons, List.not_mem_nil, or_false, not_or]

/-- The rows of the table miss exactly the frames whose code has no name, and no frame is too long (R66). -/
theorem decode_wire_reads (f : WireFrame) :
    (∃ i, decode (.wire f) = .ok i ∧ i.wellFormed = true) ∨
    (decode (.wire f) = .error (.unmappedCode f) ∧ highNibble f.b2 ∉ [0xC, 0x1, 0x5, 0x4, 0x2]) := by
  cases h : decode (.wire f) with
  | ok i =>
    rw [decode_wire_eq_decodeFields] at h
    exact .inl ⟨i, rfl, (decodeFields_ok h).1⟩
  | error e =>
    rw [decode_wire_eq_decodeFields, decodeFields, frameOfFields_fields] at h
    split_ifs at h with upT downT up down idle confirm setLimit
    exact .inr ⟨h.symm, not_mem_codes_iff.mpr ⟨up, down, idle, confirm, setLimit⟩⟩

theorem decode_wire_of_unmapped {f : WireFrame} (h : highNibble f.b2 ∉ [0xC, 0x1, 0x5, 0x4, 0x2]) :
    decode (.wire f) = .error (.unmappedCode f) := by
  obtain ⟨up, down, idle, confirm, setLimit⟩ := not_mem_codes_iff.mp h
  rw [decode_wire_eq_decodeFields, decodeFields, frameOfFields_fields]
  rw [if_neg fun row => up row.1, if_neg fun row => down row.1, if_neg up, if_neg down, if_neg idle, if_neg confirm,
    if_neg setLimit]

/-- Everything the decoder can answer. -/
theorem decode_cases (w : Offer) :
    (∃ i, decode w = .ok i ∧ i.wellFormed = true) ∨
    (∃ f, w = .wire f ∧ decode w = .error (.unmappedCode f) ∧ highNibble f.b2 ∉ [0xC, 0x1, 0x5, 0x4, 0x2]) ∨
    (∃ n, decode w = .error (.sequenceTooLong n)) := by
  cases w with
  | request r => exact (decode_request_reads r).imp_right fun h => .inr ⟨_, h⟩
  | wire f => exact (decode_wire_reads f).imp_right fun ⟨h, hcode⟩ => .inl ⟨f, rfl, h, hcode⟩

/-! ### What the block answers to a taken word -/

section Taking

variable {s : State} {w : Offer}

/-- A taken word that decodes runs its instruction. -/
theorem fetch_of_decode_ok {i : Instr} (h : s.takes w) (hd : decode w = .ok i) : fetch s = .run i := by
  obtain ⟨hrst, hbusy, hoffer⟩ := h
  rw [fetch_taking hrst hbusy hoffer, hd]

theorem fetch_of_unmapped {f : WireFrame} (h : s.takes w) (hd : decode w = .error (.unmappedCode f)) :
    fetch s = .unmapped f := by
  obtain ⟨hrst, hbusy, hoffer⟩ := h
  rw [fetch_taking hrst hbusy hoffer, hd]

/-- A word that is too long is refused by name. -/
theorem step_of_too_long {n : Nat} (h : s.takes w) (hd : decode w = .error (.sequenceTooLong n)) :
    step s = .refused (.sequenceTooLong n) := by
  obtain ⟨hrst, hbusy, hoffer⟩ := h
  exact step_overlong (by rw [fetch_taking hrst hbusy hoffer, hd])

end Taking

/-- The response to a bare frame with an unmapped code: the wrong checksum comes first (R187). -/
theorem rejectFrame_of_unmapped {f : WireFrame} (s : State) (h : highNibble f.b2 ∉ [0xC, 0x1, 0x5, 0x4, 0x2]) :
    rejectFrame f s = s.answer (noResult (if verifies f.bytes then 2 else 1)) := by
  obtain ⟨up, down, idle, confirm, setLimit⟩ := not_mem_codes_iff.mp h
  cases hverified : verifies f.bytes with
  | false => rw [rejectFrame, frameFromBytes_of_not_verified hverified]; rfl
  | true =>
    have noName : nameForCode (highNibble (f.bytes.getD 2 0)) = .error .noMatch :=
      nameForCode_of_unmapped up down idle confirm setLimit
    have five : 5 ≤ f.bytes.length := Nat.le_refl 5
    rw [rejectFrame, frameFromBytes_of_nameForCode_error five hverified noName]
    rfl

theorem step_of_unmapped {s : State} {f : WireFrame} (h : s.takes (.wire f))
    (hcode : highNibble f.b2 ∉ [0xC, 0x1, 0x5, 0x4, 0x2]) :
    step s = .next (s.answer (noResult (if verifies f.bytes then 2 else 1))).nextCycle := by
  rw [← rejectFrame_of_unmapped s hcode]
  exact step_unmapped (fetch_of_unmapped h (decode_wire_of_unmapped hcode))

theorem legalRsp_noResult_of_verdict (v : Bool) : legalRsp (noResult (if v then 2 else 1)) := by
  have legal (e : Reason) : legalRsp (rspNoResult e) :=
    legalRsp_of_endsOneWay (endsOneWay_rspNoResult e) (portsFit_rspNoResult e)
  cases v with
  | false => exact legal .malformedPayload
  | true => exact legal .unknownCommandCode

/-- `r` is what the block answers to `w`, in whatever state it takes it. -/
structure Answered (w : Offer) (r : Rsp) : Prop where
  step_eq : ∀ s : State, s.takes w → step s = .next (s.answer r).nextCycle
  legal : legalRsp r
  exec_eq : ∀ i, decode w = .ok i → ∀ s, exec i s = .next (s.answer r)
  unmapped : ∀ f, decode w = .error (.unmappedCode f) → w = .wire f ∧ r = noResult (if verifies f.bytes then 2 else 1)

/-- A word is answered with one legal response, or refused as too long. -/
theorem answered_or_too_long (w : Offer) :
    (∃ r, Answered w r) ∨ ∃ n, decode w = .error (.sequenceTooLong n) := by
  obtain ⟨i, hd, hwf⟩ | ⟨f, rfl, hd, hcode⟩ | refused := decode_cases w
  case inl =>
    obtain ⟨r, hexec, hway, hfit⟩ := exec_answers i
    refine .inl ⟨r, fun s h => step_run (fetch_of_decode_ok h hd) (hexec s),
      legalRsp_of_endsOneWay hway (hfit hwf), fun j hj => ?_, fun f hf => ?_⟩
    · obtain rfl : i = j := Except.ok.inj (hd.symm.trans hj)
      exact hexec
    · simp [hd] at hf
  case inr.inl =>
    refine .inl ⟨_, fun s h => step_of_unmapped h hcode, legalRsp_noResult_of_verdict _, fun i hi => ?_, fun g hg => ?_⟩
    · simp [hd] at hi
    · obtain rfl : f = g := by simpa [hd] using hg
      exact ⟨rfl, rfl⟩
  case inr.inr => exact .inr refused

/-! ### A busy block -/

/-- A cycle of a busy block without reset serves the transaction in flight, whatever is offered. -/
theorem step_busy {s : State} (hrst : s.inputs.rst = false) (hbusy : s.busy = true) :
    step s = .next s.serve.nextCycle :=
  step_serving (fetch_serving hrst hbusy)

theorem step_rst {s : State} (hrst : s.inputs.rst = true) : step s = .next s.applyReset.nextCycle :=
  step_resetting (fetch_resetting hrst)

/-- With latency left, a cycle counts it down. -/
theorem serve_of_waiting {s : State} {k : Nat} {r : Rsp} (h : s.flight = some ⟨k + 1, r⟩) :
    s.serve = { s with flight := some ⟨k, r⟩ } := by
  simp [State.serve, h]

/-- An offered response is held while `rsp_ready` is 0. -/
theorem serve_of_held {s : State} {r : Rsp} (h : s.flight = some ⟨0, r⟩) (hready : s.inputs.rspReady = false) :
    s.serve = s := by
  simp [State.serve, h, hready]

/-- An offered response is taken when `rsp_ready` is 1. -/
theorem serve_of_taken {s : State} {r : Rsp} (h : s.flight = some ⟨0, r⟩) (hready : s.inputs.rspReady = true) :
    s.serve = { s with busy := false, flight := none } := by
  simp [State.serve, h, hready]

/-- What the block does in a busy cycle reads of the inputs `rsp_ready` alone, and the clock replaces them. -/
theorem serve_nextCycle_of_offer (s : State) (w : Option Offer) :
    State.nextCycle (State.serve { s with inputs := { s.inputs with offer := w } }) = s.serve.nextCycle := by
  cases h : s.flight with
  | none => simp [State.serve, State.nextCycle, h]
  | some f =>
    obtain ⟨_ | k, r⟩ := f
    · cases hready : s.inputs.rspReady <;> simp [State.serve, State.nextCycle, h, hready]
    · simp [State.serve, State.nextCycle, h]

/-- A run takes one step after the other. -/
theorem run_succ_of_step {s t : State} (k : Nat) (h : step s = .next t) :
    Host.Core.run core (k + 1) s = Host.Core.run core k t := by
  have hcore : core.step s = .next t := h
  simp only [Host.Core.run, hcore]

/-- While no reset comes, a response with `k` cycles of latency left is offered after `k` cycles. -/
theorem run_until_offered {s : State} {k : Nat} {r : Rsp} (hbusy : s.busy = true) (hflight : s.flight = some ⟨k, r⟩)
    (hrst : ∀ p ∈ s.script.take k, p.rst = false) :
    ∃ t : State, Host.Core.run core k s.nextCycle = .next t ∧ t.busy = true ∧ t.flight = some ⟨0, r⟩ := by
  induction k generalizing s with
  | zero => exact ⟨s.nextCycle, rfl, hbusy, hflight⟩
  | succ k ih =>
    have now : s.nextCycle.inputs.rst = false ∧ ∀ p ∈ s.nextCycle.script.take k, p.rst = false := by
      rw [nextCycle_inputs, nextCycle_script]
      cases hscript : s.script with
      | nil => simp
      | cons p rest => simpa [hscript] using hrst
    have counted := step_busy (s := s.nextCycle) now.1 hbusy
    rw [serve_of_waiting (s := s.nextCycle) hflight] at counted
    rw [run_succ_of_step k counted]
    exact ih (s := { s.nextCycle with flight := some ⟨k, r⟩ }) hbusy rfl now.2

/-! ### The invariant -/

@[simp] theorem inv_nextCycle {s : State} : s.nextCycle.Inv ↔ s.Inv := Iff.rfl

theorem inv_of_idle {s : State} (hbusy : s.busy = false) (hflight : s.flight = none) : s.Inv := by
  simp [State.Inv, hbusy, hflight]

theorem inv_of_flight {s : State} {f : Flight} (hbusy : s.busy = true) (hflight : s.flight = some f)
    (hlegal : legalRsp f.rsp) : s.Inv := by
  simp [State.Inv, hbusy, hflight, hlegal]

theorem inv_serve {s : State} (hinv : s.Inv) : s.serve.Inv := by
  obtain ⟨_, h⟩ | ⟨k, r, hflight, h⟩ | ⟨_, _, _, h⟩ | ⟨_, _, _, h⟩ := serve_cases s
  · rwa [h]
  · obtain ⟨hbusy, hlegal⟩ := hinv
    have legal : legalRsp r := hlegal ⟨k + 1, r⟩ hflight
    rw [h]
    exact inv_of_flight (by simp [hbusy, hflight]) rfl legal
  · rwa [h]
  · rw [h]
    exact inv_of_idle rfl rfl

/-! ### The obligations -/

/-- Settles O11: the phase of the cycle is the instruction's run. -/
theorem stepRunsTheDecodedInstruction : Obligations.StepRunsTheDecodedInstruction := by
  intro s w i htakes hd
  refine ⟨?_, fun t => rfl⟩
  obtain ⟨r, hexec, _, _⟩ := exec_answers i
  rw [step_run (fetch_of_decode_ok htakes hd) (hexec s), hexec s]

/-- Settles O12: the decoder refuses the length, and the step with it. -/
theorem overlongSequenceIsRefused : Obligations.OverlongSequenceIsRefused :=
  fun _ _ htakes hlong => step_of_too_long htakes (decode_overlong hlong)

/-- Settles O13: FDEC's answer to the five bytes. -/
theorem unmappedBareFrameIsAnswered : Obligations.UnmappedBareFrameIsAnswered :=
  fun _ _ => step_of_unmapped

/-- Settles O14: under reset nothing is read, and without it `rsp_ready` alone. -/
theorem busyBlockTakesNoRequest : Obligations.BusyBlockTakesNoRequest := by
  intro s w hbusy
  cases hrst : s.inputs.rst with
  | true => rw [step_rst hrst, step_rst (s := { s with inputs := { s.inputs with offer := w } }) hrst]; rfl
  | false =>
    rw [step_busy hrst hbusy, step_busy (s := { s with inputs := { s.inputs with offer := w } }) hrst hbusy,
      serve_nextCycle_of_offer]

/-- Settles O15: the two cycles of an offered response. -/
theorem offeredResponseIsHeldUntilTaken : Obligations.OfferedResponseIsHeldUntilTaken := by
  intro s r hbusy hrst hoffered
  have hflight := offered_eq_some.mp hoffered
  refine ⟨_, step_busy hrst hbusy, fun hready => ?held, fun hready => ?taken⟩
  case held =>
    rw [serve_of_held hflight hready]
    have still : s.nextCycle.offered = some r := hoffered
    exact ⟨hbusy, by simp [State.rspValid, still], by simp [State.rspPorts, still, hoffered],
      by simp [State.rspPorts, still]⟩
  case taken =>
    rw [serve_of_taken hflight hready]
    exact ⟨rfl, rfl, rfl, rfl⟩

/-- Settles O16: the word is answered in the taking cycle, and its latency then runs down. -/
theorem takenRequestIsAnswered : Obligations.TakenRequestIsAnswered := by
  intro s w htakes hfits hrst
  obtain ⟨r, answered⟩ | ⟨n, refused⟩ := answered_or_too_long w
  case inr => exact absurd refused (hfits n)
  obtain ⟨t, hrun, hbusy, hflight⟩ := run_until_offered (s := s.answer r) rfl rfl hrst
  have hoffered := offered_eq_some.mpr hflight
  refine ⟨t, r, ?run, by simp [State.rspValid, hoffered], by simp [State.rspPorts, hoffered],
    by simp [State.reqReady, hbusy], fun i hi => answered.exec_eq i hi s, answered.unmapped⟩
  case run => rw [run_succ_of_step _ (answered.step_eq s htakes), hrun]

/-- Settles O17: the cycle of a reset. -/
theorem resetAbandonsTheTransaction : Obligations.ResetAbandonsTheTransaction :=
  fun _ hrst => ⟨_, step_rst hrst, rfl, rfl, rfl, rfl, rfl, rfl⟩

/-- Settles O18: the fields of the reset state. -/
theorem resetLeavesTheBlockReady : Obligations.ResetLeavesTheBlockReady :=
  ⟨reset_busy, rfl, rfl⟩

/-- Settles O19: only the clock advances. -/
theorem quietCycleChangesNothing : Obligations.QuietCycleChangesNothing :=
  fun _ hrst hbusy hoffer => ⟨_, step_quiet (fetch_quiet hrst hbusy hoffer), rfl, rfl⟩

/-- Settles O20: by what the cycle does; a served transaction keeps its response, a taken word has a legal one. -/
theorem everyStepKeepsTheHandshakeInvariant : Obligations.EveryStepKeepsTheHandshakeInvariant := by
  intro s t hinv hstep
  have taken {w : Offer} (htakes : s.takes w) : t.Inv := by
    obtain ⟨r, answered⟩ | ⟨n, refused⟩ := answered_or_too_long w
    · obtain rfl := next_inj.mp ((answered.step_eq s htakes).symm.trans hstep)
      exact inv_of_flight rfl rfl answered.legal
    · simp [step_of_too_long htakes refused] at hstep
  cases hrst : s.inputs.rst with
  | true =>
    obtain rfl := next_inj.mp ((step_rst hrst).symm.trans hstep)
    exact inv_of_idle rfl rfl
  | false =>
    cases hbusy : s.busy with
    | true =>
      obtain rfl := next_inj.mp ((step_busy hrst hbusy).symm.trans hstep)
      exact inv_nextCycle.mpr (inv_serve hinv)
    | false =>
      cases hoffer : s.inputs.offer with
      | none =>
        obtain rfl := next_inj.mp ((step_quiet (fetch_quiet hrst hbusy hoffer)).symm.trans hstep)
        exact inv_nextCycle.mpr hinv
      | some w => exact taken ⟨hrst, hbusy, hoffer⟩

/-- Settles O21: nothing is in flight. -/
theorem resetHasTheHandshakeInvariant : Obligations.ResetHasTheHandshakeInvariant :=
  ⟨rfl, fun _ h => nomatch h⟩

/-- Settles O23: the response of `answered_or_too_long` does not depend on the state. -/
theorem responseDependsOnTheRequestAlone : Obligations.ResponseDependsOnTheRequestAlone := by
  intro w s s' htakes htakes' t hstep
  obtain ⟨r, answered⟩ | ⟨n, refused⟩ := answered_or_too_long w
  · obtain rfl := next_inj.mp ((answered.step_eq s htakes).symm.trans hstep)
    exact ⟨_, _, _, answered.step_eq s' htakes', rfl, rfl, rfl⟩
  · simp [step_of_too_long htakes refused] at hstep

end Sys2Proof.Machine

/-!
The laws of the BitStream Codec, the Checksum Engine and the Command Map (spec/40_bitstream_codec.md R102,
41_checksum_engine.md R112, R113, 42_command_mapper.md R122): the checksum and the verdict as the sum of the bytes, the
two lookups as inverses, then obligations O29, O31, O33 and O36.
-/

namespace Sys2Proof.Machine

/-! ### The checksum as a sum modulo 256 (R112) -/

/-- Every byte is subtracted once from the seed 1. -/
theorem csum_eq_one_sub_sum (bytes : List Byte) : csum bytes = 1 - bytes.sum := by
  induction bytes using List.reverseRecOn with
  | nil => rfl
  | append_singleton init b ih => rw [csum_append_singleton, ih, List.sum_append, List.sum_singleton, sub_sub]

/-- The sum of bytes as a number is the sum of their numbers modulo 256. -/
theorem sum_toNat (bytes : List Byte) : bytes.sum.toNat = (bytes.map BitVec.toNat).sum % 256 := by
  induction bytes with
  | nil => rfl
  | cons b bytes ih => simp [BitVec.toNat_add, ih]

/-- A sequence of two bytes or more verifies exactly when its bytes add to 1 (R112, R113). -/
theorem verifies_iff_sum {bytes : List Byte} (hlen : 2 ≤ bytes.length) : verifies bytes = true ↔ bytes.sum = 1 := by
  cases bytes using List.reverseRecOn with
  | nil => simp at hlen
  | append_singleton init last =>
    have nonempty : init.isEmpty = false := by
      cases init with
      | nil => simp at hlen
      | cons b init => rfl
    simp only [verifies_append_singleton, nonempty, csum_eq_one_sub_sum, List.sum_append, List.sum_singleton,
      Bool.not_false, Bool.true_and, beq_iff_eq]
    rw [sub_eq_iff_eq_add', eq_comm]

/-- The verdict as a test on numbers. -/
theorem verifies_iff_sum_toNat {bytes : List Byte} (hlen : 2 ≤ bytes.length) :
    verifies bytes = true ↔ (bytes.map BitVec.toNat).sum % 256 = 1 := by
  rw [verifies_iff_sum hlen, ← sum_toNat, ← BitVec.toNat_inj]
  rfl

/-- A sequence with its checksum appended verifies (R113). -/
theorem verifies_append_csum {bytes : List Byte} (h : bytes ≠ []) : verifies (bytes ++ [csum bytes]) = true := by
  simp [verifies_append_singleton, h]

/-- Flipping a bit changes the byte. -/
theorem xor_twoPow_ne (b : Byte) {j : Nat} (hj : j < 8) : b ^^^ BitVec.twoPow 8 j ≠ b := by
  intro h
  have bit := congrArg (BitVec.getLsbD · j) h
  simp [hj] at bit

/-! ### The two lookups (R122) -/

theorem nameForCode_eq_ok_iff (code : Nibble) (name : CmdName) :
    nameForCode code = .ok name ↔ codeForName (some name) = .ok code := by
  cases name with
  | up | down | idle | confirm | setLimit | my | deepUp | deepDown => revert code; decide
  | other k => revert code k; decide

/-- The lookup by code succeeds on exactly the five codes of the table. -/
theorem nameForCode_isOk_iff (code : Nibble) :
    (∃ name, nameForCode code = .ok name) ↔ code ∈ [0xC, 0x1, 0x5, 0x4, 0x2] := by
  refine ⟨fun ⟨name, hname⟩ => ?found, fun hmem => ?mapped⟩
  case found =>
    by_contra outside
    obtain ⟨up, down, idle, confirm, setLimit⟩ := not_mem_codes_iff.mp outside
    simp [nameForCode_of_unmapped up down idle confirm setLimit] at hname
  case mapped =>
    simp only [List.mem_cons, List.not_mem_nil, or_false] at hmem
    obtain rfl | rfl | rfl | rfl | rfl := hmem <;> exact ⟨_, rfl⟩

/-- The lookup by name succeeds on exactly the five names of the table. -/
theorem codeForName_isOk_iff (name : Option CmdName) : (∃ code, codeForName name = .ok code) ↔
    name ∈ [some .up, some .down, some .idle, some .confirm, some .setLimit] := by
  match name with
  | some .up | some .down | some .idle | some .confirm | some .setLimit => simp
  | some .my | some .deepUp | some .deepDown | some (.other k) | none => simp

/-! ### The obligations -/

/-- Settles O29: the codec's round trips and lengths. -/
theorem bitCodecRoundTrips : Obligations.BitCodecRoundTrips := by
  refine ⟨bitsToBytes_bytesToBits, bytesToBits_append_residue, fun bits haligned => ?aligned, bytesToBits_length,
    fun bits => ⟨?lengths, bitsToBytes_residue_length bits⟩⟩
  case aligned =>
    have noResidue : (bitsToBytes bits).2 = [] :=
      List.eq_nil_of_length_eq_zero ((bitsToBytes_residue_length bits).trans haligned)
    have whole := bytesToBits_append_residue bits
    rw [noResidue, List.append_nil] at whole
    exact ⟨noResidue, whole⟩
  case lengths =>
    rw [bitsToBytes_bytes_length, bitsToBytes_residue_length]
    exact Nat.div_add_mod bits.length 8

/-- Settles O31: the closed form, which does not look at the order. -/
theorem csumIsOneMinusTheByteSum : Obligations.CsumIsOneMinusTheByteSum := by
  refine ⟨fun bytes => ?closed, fun a b hperm => ?order⟩
  case closed =>
    have sum := sum_toNat bytes
    have sub : (1 - bytes.sum).toNat = (256 - bytes.sum.toNat + 1) % 256 := BitVec.toNat_sub 1 bytes.sum
    rw [csum_eq_one_sub_sum, sub]
    omega
  case order => rw [csum_eq_one_sub_sum, csum_eq_one_sub_sum, hperm.sum_eq]

/-- Settles O33: a flipped bit changes the sum of the bytes. -/
theorem verifyDetectsEverySingleBitFlip : Obligations.VerifyDetectsEverySingleBitFlip := by
  intro b hb
  have accepted := verifies_append_csum hb
  refine ⟨accepted, fun k j hk hj => ?_⟩
  have hlen : 2 ≤ (b ++ [csum b]).length := by
    have := List.length_pos_of_ne_nil hb
    simp
    omega
  have hk' : k < (b ++ [csum b]).length := by
    simp
    omega
  have sum_one := (verifies_iff_sum hlen).mp accepted
  rw [Bool.eq_false_iff, ne_eq, verifies_iff_sum (by simpa using hlen), List.sum_set', dif_pos hk', sum_one,
    List.getD_eq_getElem _ _ hk', add_eq_left, neg_add_eq_zero]
  exact (xor_twoPow_ne _ hj).symm

/-- Settles O36: the lookups as inverses, and their domains. -/
theorem commandTableIsABijection : Obligations.CommandTableIsABijection :=
  ⟨nameForCode_eq_ok_iff, nameForCode_isOk_iff, codeForName_isOk_iff⟩

end Sys2Proof.Machine

/-!
The laws of the Frame Codec (spec/43_frame_codec.md R130 to R133, 30_encoding.md section 7): FDEC on the frame of given
fields, the five bytes FENC sends and the object they decode to, then obligations O39, O40, O42 and O43.
-/

namespace Sys2Proof.Machine

/-! ### FDEC on the frame of given fields (R60, R130) -/

section Fields

variable (a : BitVec 16) (code u t x : Nibble) (k : Byte)

/-- FDEC reads the fields back: the object of the code and the tilt nibble when the frame is verified. -/
theorem frameFromBytes_frameOfFields {m : CmdName} (hname : nameForCode code = .ok m) :
    frameFromBytes (frameOfFields a code u t x k).bytes =
      whenVerified (frameOfFields a code u t x k) (addMotion m (byteOfNibbles t x) (frameObject a u m)) := by
  have object : objectOfBytes (a.extractLsb' 8 8) (a.extractLsb' 0 8) (byteOfNibbles code u) (byteOfNibbles t x) =
      .ok (addMotion m (byteOfNibbles t x) (frameObject a u m)) := by
    simp [objectOfBytes, hname]
  rw [whenVerified, ← object]
  rfl

/-- FDEC's answer to the five bytes of a frame whose code has a name. -/
theorem exec_fdec_frameOfFields {m : CmdName} (hname : nameForCode code = .ok m) (s : State) :
    exec (.fdec (frameOfFields a code u t x k).bytes) s =
      .next (s.reply rspObject (whenVerified (frameOfFields a code u t x k)
        (addMotion m (byteOfNibbles t x) (frameObject a u m)))) := by
  rw [exec_fdec, frameFromBytes_frameOfFields a code u t x k hname]

/-- A frame is verified when its five bytes, as numbers of its fields, add to 1 modulo 256 (R112). -/
theorem verifies_frameOfFields : verifies (frameOfFields a code u t x k).bytes = true ↔
    (a.toNat / 256 + a.toNat % 256 + (code.toNat * 16 + u.toNat) + (t.toNat * 16 + x.toNat) + k.toNat) % 256 = 1 := by
  have ha := a.isLt
  have hcode := code.isLt
  have hu := u.isLt
  have ht := t.isLt
  have hx := x.isLt
  have hlen : 2 ≤ (frameOfFields a code u t x k).bytes.length := by simp [WireFrame.bytes]
  rw [verifies_iff_sum_toNat hlen]
  simp [WireFrame.bytes, frameOfFields, byteOfNibbles_eq_ofNat, Nat.shiftRight_eq_div_pow]
  omega

/-- A frame row's answer: its object when the bytes add to 1, and MalformedPayload otherwise. -/
theorem reply_whenVerified (o : DataObject) (s : State) :
    s.reply rspObject (whenVerified (frameOfFields a code u t x k) o) = s.answer (
      if (a.toNat / 256 + a.toNat % 256 + (code.toNat * 16 + u.toNat) + (t.toNat * 16 + x.toNat) + k.toNat) % 256 = 1
      then objectResult o else noResult 1) := by
  simp only [← verifies_frameOfFields, whenVerified]
  split_ifs <;> rfl

/-- The tilt nibble 1 makes a command up a tilt pulse. -/
theorem addMotion_up_of_tilt (o : DataObject) :
    addMotion .up (byteOfNibbles 1 x) o = { o with tiltUp := true, tilt := some .up } := by
  simp [addMotion]

theorem addMotion_down_of_tilt (o : DataObject) :
    addMotion .down (byteOfNibbles 1 x) o = { o with tiltDown := true, tilt := some .down } := by
  simp [addMotion]

/-- Any other tilt nibble leaves it full travel. -/
theorem addMotion_up_of_ne {t : Nibble} (ht : t ≠ 1) (o : DataObject) :
    addMotion .up (byteOfNibbles t x) o = { o with state := some .up, direction := some .up } := by
  simp only [addMotion, highNibble_byteOfNibbles, if_neg ht]

theorem addMotion_down_of_ne {t : Nibble} (ht : t ≠ 1) (o : DataObject) :
    addMotion .down (byteOfNibbles t x) o = { o with state := some .down, direction := some .down } := by
  simp only [addMotion, highNibble_byteOfNibbles, if_neg ht]

end Fields

/-! ### The five bytes of FENC and the object they decode to (R131, R132) -/

/-- The five bytes FENC sends. -/
def sentBytes (a : BitVec 16) (code u : Nibble) (tilt : Bool) : List Byte :=
  payloadBytes a code u tilt ++ [csum (payloadBytes a code u tilt)]

/-- The byte 3 of a sent frame: tilt nibble 1 for a tilt pulse (R68). -/
def tiltByte (tilt : Bool) : Byte := if tilt then 0x10 else 0x00

theorem tiltByte_eq_byteOfNibbles : ∀ tilt : Bool, tiltByte tilt = byteOfNibbles (if tilt then 1 else 0) 0 := by
  decide

/-- The object a sent frame decodes to. -/
def decodedObject (a : BitVec 16) (u : Nibble) (m : CmdName) (tilt : Bool) : DataObject :=
  addMotion m (tiltByte tilt) (frameObject a u m)

theorem bytesFromFrame_eq_sentBytes {o : DataObject} {a : BitVec 16} {m : CmdName} {code : Nibble}
    (haddress : o.address = some a) (hname : selectName o = some m) (hcode : nameForCode code = .ok m) :
    bytesFromFrame o = .ok (sentBytes a code (o.unit.getD 0) (isTilt o)) := by
  rw [nameForCode_eq_ok_iff, ← hname] at hcode
  exact bytesFromFrame_of_codeForName_ok haddress hcode

/-- The payload of an address, a code, a unit and a tilt flag are the bytes of R60. -/
theorem payloadBytes_eq (a : BitVec 16) (code u : Nibble) (tilt : Bool) :
    payloadBytes a code u tilt = [a.extractLsb' 8 8, a.extractLsb' 0 8, byteOfNibbles code u, tiltByte tilt] := by
  have high : (a >>> 8 &&& 0xFF).setWidth 8 = a.extractLsb' 8 8 := by
    apply BitVec.eq_of_toNat_eq
    simp [Nat.and_two_pow_sub_one_eq_mod _ 8]
  have low : (a &&& 0xFF).setWidth 8 = a.extractLsb' 0 8 := by
    apply BitVec.eq_of_toNat_eq
    simp [Nat.and_two_pow_sub_one_eq_mod _ 8]
  have codeAndUnit : byteOfNibbles code u &&& 0xFF = byteOfNibbles code u := BitVec.and_allOnes
  simp only [payloadBytes, high, low, codeAndUnit, tiltByte]

/-- The sent bytes are the frame of their fields, with tilt nibble 1 for a tilt pulse. -/
theorem sentBytes_eq_bytes (a : BitVec 16) (code u : Nibble) (tilt : Bool) : sentBytes a code u tilt =
    (frameOfFields a code u (if tilt then 1 else 0) 0 (csum (payloadBytes a code u tilt))).bytes := by
  rw [sentBytes, payloadBytes_eq, tiltByte_eq_byteOfNibbles]
  rfl

/-- FDEC of what FENC sends (R132). -/
theorem frameFromBytes_sentBytes (a : BitVec 16) (u : Nibble) (tilt : Bool) {code : Nibble} {m : CmdName}
    (hcode : nameForCode code = .ok m) : frameFromBytes (sentBytes a code u tilt) = .ok (decodedObject a u m tilt) := by
  have verified : verifies (sentBytes a code u tilt) = true := verifies_append_csum (by simp [payloadBytes])
  rw [sentBytes_eq_bytes] at verified
  rw [sentBytes_eq_bytes, frameFromBytes_frameOfFields _ _ _ _ _ _ hcode, whenVerified, if_pos verified,
    ← tiltByte_eq_byteOfNibbles]
  rfl

/-! ### The fields of a decoded object that FENC looks at -/

section Decoded

variable (m : CmdName) (b3 : Byte) (a : BitVec 16) (u : Nibble)

@[simp] theorem addMotion_address (o : DataObject) : (addMotion m b3 o).address = o.address := by
  rcases addMotion_cases m b3 o with h | h | h | h | h <;> rw [h]

@[simp] theorem addMotion_unit (o : DataObject) : (addMotion m b3 o).unit = o.unit := by
  rcases addMotion_cases m b3 o with h | h | h | h | h <;> rw [h]

/-- A decoded object selects the name it was decoded with. -/
theorem selectName_addMotion : selectName (addMotion m b3 (frameObject a u m)) = some m := by
  cases m with
  | up | down =>
    simp only [addMotion]
    split_ifs <;> rfl
  | idle | confirm | setLimit | my | deepUp | deepDown | other => rfl

/-- FENC of a decoded object sends its code again, its byte 3 by whether it has a tilt flag (R133). -/
theorem bytesFromFrame_addMotion {m : CmdName} {code : Nibble} (hcode : nameForCode code = .ok m) :
    bytesFromFrame (addMotion m b3 (frameObject a u m)) =
      .ok (sentBytes a code u (isTilt (addMotion m b3 (frameObject a u m)))) := by
  rw [bytesFromFrame_eq_sentBytes (a := a) (by simp [frameObject]) (selectName_addMotion m b3 a u) hcode]
  simp [frameObject]

end Decoded

/-! ### The obligations -/

/-- Settles O39: FDEC of the sent bytes, and FENC of what it gives. -/
theorem frameRoundTrips : Obligations.FrameRoundTrips := by
  simp only [Obligations.FrameRoundTrips, ← idOf_eq_ofNat]
  intro a u
  have roundTrip {o : DataObject} {m : CmdName} {code : Nibble} (tilt : Bool) (haddress : o.address = some a)
      (hunit : o.unit.getD 0 = u) (hname : selectName o = some m) (htilt : isTilt o = tilt)
      (hcode : nameForCode code = .ok m) (hdecoded : isTilt (decodedObject a u m tilt) = tilt) :
      ∃ b, bytesFromFrame o = .ok b ∧ frameFromBytes b = .ok (decodedObject a u m tilt) ∧
        bytesFromFrame (decodedObject a u m tilt) = .ok b := by
    refine ⟨sentBytes a code u tilt, ?_, frameFromBytes_sentBytes a u tilt hcode, ?_⟩
    · rw [bytesFromFrame_eq_sentBytes haddress hname hcode, hunit, htilt]
    · rw [decodedObject, bytesFromFrame_addMotion _ a u hcode, ← decodedObject, hdecoded]
  refine ⟨?travel, ?idle, ?tiltUp, ?tiltDown, ?bare⟩
  case travel =>
    rintro m (rfl | rfl)
    · exact ⟨roundTrip false rfl rfl rfl rfl nameForCode_up rfl, roundTrip false rfl rfl rfl rfl nameForCode_up rfl⟩
    · exact ⟨roundTrip false rfl rfl rfl rfl nameForCode_down rfl,
        roundTrip false rfl rfl rfl rfl nameForCode_down rfl⟩
  case idle => exact roundTrip false rfl rfl rfl rfl nameForCode_idle rfl
  case tiltUp => exact roundTrip true rfl rfl rfl rfl nameForCode_up rfl
  case tiltDown => exact roundTrip true rfl rfl rfl rfl nameForCode_down rfl
  case bare =>
    rintro m (rfl | rfl)
    · exact roundTrip false rfl rfl rfl rfl nameForCode_confirm rfl
    · exact roundTrip false rfl rfl rfl rfl nameForCode_setLimit rfl

/-- Settles O40: the decoded fields are bytes 0 to 2, and a fifth byte that verifies is the checksum. -/
theorem decodedFrameReencodesCanonically : Obligations.DecodedFrameReencodesCanonically := by
  intro bytes d hdecoded t payload
  obtain ⟨b0, b1, b2, b3, b4, rest, name, rfl, hverified, hname, hd⟩ := frameFromBytes_ok hdecoded
  have encoded : bytesFromFrame d = .ok (payload ++ [csum payload]) := by
    have sent := bytesFromFrame_addMotion b3 (addressOfBytes b0 b1) (lowNibble b2) hname
    rw [← hd, sentBytes, payloadBytes_eq, extract_high_addressOfBytes, extract_low_addressOfBytes,
      byteOfNibbles_nibbles] at sent
    exact sent
  refine ⟨encoded, ?_⟩
  rw [encoded, Except.ok.injEq]
  refine ⟨fun h => ?canonical, fun ⟨hlen, hbyte3⟩ => ?same⟩
  case canonical =>
    simp only [payload, List.cons_append, List.nil_append, List.cons.injEq] at h
    obtain ⟨_, _, _, hbyte3, _, hrest⟩ := h
    exact ⟨by simp [← hrest], hbyte3.symm⟩
  case same =>
    obtain rfl : rest = [] := by simpa using hlen
    obtain rfl : b3 = t := hbyte3
    have last : csum payload = b4 := by
      have split := verifies_append_singleton payload b4
      simpa [payload, hverified] using split
    rw [last]
    rfl

/-- Settles O42: FDEC on the fields of the row, with the row's tilt nibble. -/
theorem frameRowsAnswerAsFdec : Obligations.FrameRowsAnswerAsFdec := by
  intro i f s hwf hencode
  have notTilt {t : Nibble} (h : (t != 1) = true) : t ≠ 1 := by simpa using h
  cases i with
  | upT a u x k =>
    obtain rfl := Offer.wire.inj hencode
    rw [exec_fdec_frameOfFields _ _ _ _ _ _ nameForCode_up, addMotion_up_of_tilt]
    rfl
  | downT a u x k =>
    obtain rfl := Offer.wire.inj hencode
    rw [exec_fdec_frameOfFields _ _ _ _ _ _ nameForCode_down, addMotion_down_of_tilt]
    rfl
  | up a u t x k =>
    obtain rfl := Offer.wire.inj hencode
    rw [exec_fdec_frameOfFields _ _ _ _ _ _ nameForCode_up, addMotion_up_of_ne _ (notTilt hwf)]
    rfl
  | down a u t x k =>
    obtain rfl := Offer.wire.inj hencode
    rw [exec_fdec_frameOfFields _ _ _ _ _ _ nameForCode_down, addMotion_down_of_ne _ (notTilt hwf)]
    rfl
  | idle a u t x k =>
    obtain rfl := Offer.wire.inj hencode
    exact (exec_fdec_frameOfFields _ _ _ _ _ _ nameForCode_idle s).symm
  | confirm a u t x k =>
    obtain rfl := Offer.wire.inj hencode
    exact (exec_fdec_frameOfFields _ _ _ _ _ _ nameForCode_confirm s).symm
  | setLimit a u t x k =>
    obtain rfl := Offer.wire.inj hencode
    exact (exec_fdec_frameOfFields _ _ _ _ _ _ nameForCode_setLimit s).symm
  | _ => simp [encode] at hencode

/-- Settles O43: the fields as numbers, row by row. -/
theorem frameRowsGiveTheirObjects : Obligations.FrameRowsGiveTheirObjects := by
  intro a u t x k s answer o
  have object (m : CmdName) : o m = frameObject a u m := by rw [frameObject, idOf_eq_ofNat]
  have row (code tilt : Nibble) (d : DataObject) :
      Host.Outcome.next (s.reply rspObject (whenVerified (frameOfFields a code u tilt x k) d)) =
        answer code.toNat tilt.toNat d :=
    congrArg _ (reply_whenVerified a code u tilt x k d s)
  simp only [object]
  exact ⟨row 0xC 1 _, row 0x1 1 _, fun _ => ⟨row 0xC t _, row 0x1 t _⟩, row 0x5 t _, row 0x4 t _, row 0x2 t _⟩

end Sys2Proof.Machine

/-!
The laws of the Settings Normalizer (spec/44_settings_normalizer.md R155, R156, R157): the swaps as involutions, what
the rewrites do one after another, what each leaves unchanged, then obligations O49, O50 and O51.
-/

namespace Sys2Proof.Machine

/-! ### The swaps -/

@[simp] theorem swapUD_swapUD (v : Option CmdName) : swapUD (swapUD v) = v := by
  rcases v with _ | (_ | _ | _ | _ | _ | _ | _ | _ | _) <;> rfl

/-- The two swaps of an outbound `cmd` are together an involution. -/
@[simp] theorem swap_swap_outbound (v : Option CmdName) : swapDeep (swapUD (swapDeep (swapUD v))) = v := by
  rcases v with _ | (_ | _ | _ | _ | _ | _ | _ | _ | _) <;> rfl

@[simp] theorem swapUD_eq_my {v : Option CmdName} : swapUD v = some .my ↔ v = some .my :=
  swapUD_eq_iff_of_ne (by simp) (by simp)

/-- Rotation neither makes nor removes the name `my`. -/
@[simp] theorem rotate_cmd_eq_my {o : DataObject} {d : Direction} : (rotate o d).cmd = some .my ↔ o.cmd = some .my := by
  rw [rotate_cmd]
  split_ifs with hup hdown
  · simp [hup.2]
  · simp [hdown.2]
  · exact swapUD_eq_my

/-! ### Synthesis field by field (R150) -/

/-- The `direction` that synthesis leaves: a moving `state`, or what there was. -/
def mirrorDirection (state direction : Option CmdName) : Option CmdName :=
  if state = none ∨ state = some .idle then direction else state

/-- The `tilt` that synthesis leaves: the name of a flag, `tilt_up` first, or what there was. -/
def mirrorTilt (tiltUp tiltDown : Bool) (tilt : Option CmdName) : Option CmdName :=
  if tiltUp then some .up else if tiltDown then some .down else tilt

theorem synthesize_eq (o : DataObject) : synthesize o =
    { o with direction := mirrorDirection o.state o.direction, tilt := mirrorTilt o.tiltUp o.tiltDown o.tilt } := by
  by_cases still : o.state = none ∨ o.state = some .idle
  · rw [synthesize_of_still still, mirrorDirection, if_pos still]
    rfl
  · obtain ⟨m, hm⟩ := Option.ne_none_iff_exists'.mp fun h => still (.inl h)
    rw [synthesize_of_moving hm fun h => still (.inr (h ▸ hm)), mirrorDirection, if_neg still, hm]
    rfl

@[simp] theorem mirrorDirection_mirrorDirection (state direction : Option CmdName) :
    mirrorDirection state (mirrorDirection state direction) = mirrorDirection state direction := by
  unfold mirrorDirection
  split_ifs <;> rfl

@[simp] theorem mirrorTilt_mirrorTilt (tiltUp tiltDown : Bool) (tilt : Option CmdName) :
    mirrorTilt tiltUp tiltDown (mirrorTilt tiltUp tiltDown tilt) = mirrorTilt tiltUp tiltDown tilt := by
  cases tiltUp <;> cases tiltDown <;> rfl

/-- The swap turns neither a moving `state` into a still one nor the other way round. -/
theorem mirrorDirection_swapUD (state direction : Option CmdName) :
    mirrorDirection (swapUD state) (swapUD direction) = swapUD (mirrorDirection state direction) := by
  rcases state with _ | (_ | _ | _ | _ | _ | _ | _ | _ | _) <;> rfl

/-- Exchanged flags give the exchanged `tilt`, unless both are set: then `tilt_up` wins either way. -/
theorem mirrorTilt_swapped {tiltUp tiltDown : Bool} (hflags : ¬ (tiltUp = true ∧ tiltDown = true))
    (tilt : Option CmdName) : mirrorTilt tiltDown tiltUp (swapUD tilt) = swapUD (mirrorTilt tiltUp tiltDown tilt) := by
  cases tiltUp with
  | false => cases tiltDown <;> rfl
  | true =>
    obtain rfl : tiltDown = false := by simpa using hflags
    rfl

/-! ### One rewrite after another (R155, R156) -/

section Rewrites

variable (o : DataObject) (d : Direction)

@[simp] theorem rotate_rotate : rotate (rotate o d) d = o := by
  cases d <;> simp [rotate]

@[simp] theorem invertTilt_invertTilt : invertTilt (invertTilt o) = o := by
  simp [invertTilt]

theorem invertTilt_rotate : invertTilt (rotate o d) = rotate (invertTilt o) d := rfl

theorem resolveMy_rotate : resolveMy (rotate o d) = rotate (resolveMy o) d := by
  by_cases hmy : o.cmd = some .my
  · rw [resolveMy_of_my hmy, resolveMy_of_my (rotate_cmd_eq_my.mpr hmy)]
    cases d <;> rfl
  · rw [resolveMy_of_ne_my hmy, resolveMy_of_ne_my (mt rotate_cmd_eq_my.mp hmy)]

theorem resolveMy_invertTilt : resolveMy (invertTilt o) = invertTilt (resolveMy o) := by
  by_cases hmy : o.cmd = some .my
  · rw [resolveMy_of_my hmy, resolveMy_of_my (o := invertTilt o) hmy]
    rfl
  · rw [resolveMy_of_ne_my hmy, resolveMy_of_ne_my (o := invertTilt o) hmy]

theorem resolveMy_resolveMy : resolveMy (resolveMy o) = resolveMy o := by
  by_cases hmy : o.cmd = some .my
  · rw [resolveMy_of_my hmy]
    rfl
  · rw [resolveMy_of_ne_my hmy, resolveMy_of_ne_my hmy]

theorem synthesize_synthesize : synthesize (synthesize o) = synthesize o := by
  simp [synthesize_eq]

variable {o} in
theorem synthesize_rotate (hflags : ¬ (o.tiltUp = true ∧ o.tiltDown = true)) :
    synthesize (rotate o d) = rotate (synthesize o) d := by
  simp [synthesize_eq, rotate, mirrorDirection_swapUD, mirrorTilt_swapped hflags]

variable {o} in
theorem synthesize_invertTilt (hflags : ¬ (o.tiltUp = true ∧ o.tiltDown = true)) :
    synthesize (invertTilt o) = invertTilt (synthesize o) := by
  simp [synthesize_eq, invertTilt, mirrorTilt_swapped hflags]

end Rewrites

/-! ### NORM as a rewrite under its settings (R154) -/

/-- Rotation, then inversion, each under its setting. -/
def applySettings (rot inv : Bool) (d : Direction) (o : DataObject) : DataObject :=
  let rotated := if rot then rotate o d else o
  if inv then invertTilt rotated else rotated

theorem normalizeObject_inbound_unpaired (o : DataObject) (rot inv : Bool) :
    normalizeObject o ⟨rot, inv, .inbound, false⟩ = applySettings rot inv .inbound o :=
  normalizeObject_inbound o rot inv false

theorem normalizeObject_outbound_eq (o : DataObject) (rot inv pair : Bool) :
    normalizeObject o ⟨rot, inv, .outbound, pair⟩ = resolveMy (applySettings rot inv .outbound o) :=
  normalizeObject_outbound o rot inv pair

@[simp] theorem applySettings_applySettings (rot inv : Bool) (d : Direction) (o : DataObject) :
    applySettings rot inv d (applySettings rot inv d o) = o := by
  cases rot <;> cases inv <;> simp [applySettings, invertTilt_rotate]

@[simp] theorem applySettings_cmd_eq_my {rot inv : Bool} {d : Direction} {o : DataObject} :
    (applySettings rot inv d o).cmd = some .my ↔ o.cmd = some .my := by
  cases rot <;> cases inv <;> simp [applySettings, invertTilt]

theorem resolveMy_applySettings (rot inv : Bool) (d : Direction) (o : DataObject) :
    resolveMy (applySettings rot inv d o) = applySettings rot inv d (resolveMy o) := by
  cases rot <;> cases inv <;> simp [applySettings, resolveMy_rotate, resolveMy_invertTilt]

/-- What every rewrite keeps, NORM keeps. -/
theorem normalizeObject_keeps {P : DataObject → Prop} {o : DataObject} (c : Ctl) (start : P o)
    (hsynthesize : ∀ o, P o → P (synthesize o)) (hrotate : ∀ o d, P o → P (rotate o d))
    (hinvert : ∀ o, P o → P (invertTilt o)) (hresolve : ∀ o, P o → P (resolveMy o)) : P (normalizeObject o c) := by
  have settings {o' : DataObject} {rot inv : Bool} {d : Direction} (h : P o') : P (applySettings rot inv d o') := by
    match rot, inv with
    | false, false => exact h
    | false, true => exact hinvert _ h
    | true, false => exact hrotate _ _ h
    | true, true => exact hinvert _ (hrotate _ _ h)
  obtain ⟨rot, inv, _ | _, pair⟩ := c
  · rw [normalizeObject_inbound]
    cases pair with
    | false => exact settings start
    | true => exact settings (hsynthesize _ start)
  · rw [normalizeObject_outbound]
    exact hresolve _ (settings start)

/-! ### What the rewrites leave alone (R157) -/

/-- `o'` has the address, unit, group and id of `o`. -/
def SameIdentity (o o' : DataObject) : Prop :=
  o'.address = o.address ∧ o'.unit = o.unit ∧ o'.group = o.group ∧ o'.id = o.id

theorem sameIdentity_refl (o : DataObject) : SameIdentity o o := ⟨rfl, rfl, rfl, rfl⟩

section Keeps

variable {o o' : DataObject}

theorem sameIdentity_synthesize (h : SameIdentity o o') : SameIdentity o (synthesize o') := by
  rw [synthesize_eq]
  exact h

theorem sameIdentity_rotate (d : Direction) (h : SameIdentity o o') : SameIdentity o (rotate o' d) := h

theorem sameIdentity_invertTilt (h : SameIdentity o o') : SameIdentity o (invertTilt o') := h

theorem sameIdentity_resolveMy (h : SameIdentity o o') : SameIdentity o (resolveMy o') := by
  unfold resolveMy
  split_ifs
  · exact h
  · exact h

theorem sameIdentity_normalizeObject (c : Ctl) : SameIdentity o (normalizeObject o c) :=
  normalizeObject_keeps c (sameIdentity_refl o) (fun _ => sameIdentity_synthesize) (fun _ d => sameIdentity_rotate d)
    (fun _ => sameIdentity_invertTilt) (fun _ => sameIdentity_resolveMy)

@[simp] theorem swapUD_other (k : Fin 7) : swapUD (some (.other k)) = some (.other k) := rfl

@[simp] theorem rotate_state (o : DataObject) (d : Direction) : (rotate o d).state = swapUD o.state := rfl

@[simp] theorem invertTilt_cmd (o : DataObject) : (invertTilt o).cmd = o.cmd := rfl

@[simp] theorem invertTilt_state (o : DataObject) : (invertTilt o).state = o.state := rfl

@[simp] theorem synthesize_cmd (o : DataObject) : (synthesize o).cmd = o.cmd := by rw [synthesize_eq]

@[simp] theorem synthesize_state (o : DataObject) : (synthesize o).state = o.state := by rw [synthesize_eq]

theorem rotate_cmd_of_other {d : Direction} {k : Fin 7} (h : o.cmd = some (.other k)) :
    (rotate o d).cmd = some (.other k) := by
  simp [rotate_cmd, h]

/-- NORM keeps an unrecognised `cmd`: it is not `my`. -/
theorem normalizeObject_cmd_of_other (c : Ctl) {k : Fin 7} (h : o.cmd = some (.other k)) :
    (normalizeObject o c).cmd = some (.other k) :=
  normalizeObject_keeps (P := fun o' => o'.cmd = some (.other k)) c h (by simp) (fun _ _ => rotate_cmd_of_other)
    (by simp) fun o ho => by rwa [resolveMy_of_ne_my (by simp [ho])]

/-- NORM keeps an unrecognised `state` where the alias does not overwrite it. -/
theorem normalizeObject_state_of_other (c : Ctl) {k : Fin 7} (h : o.state = some (.other k))
    (hmy : o.cmd ≠ some .my) : (normalizeObject o c).state = some (.other k) := by
  have keeps : (normalizeObject o c).state = some (.other k) ∧ (normalizeObject o c).cmd ≠ some .my :=
    normalizeObject_keeps (P := fun o' => o'.state = some (.other k) ∧ o'.cmd ≠ some .my) c ⟨h, hmy⟩
      (by simp) (fun _ _ ⟨hs, hc⟩ => ⟨by simp [hs], mt rotate_cmd_eq_my.mp hc⟩) (by simp)
      fun o ho => by rwa [resolveMy_of_ne_my ho.2]
  exact keeps.1

end Keeps

/-! ### The obligations -/

/-- Settles O49: each rewrite twice, and NORM as the settings applied twice. -/
theorem rotationAndInversionAreInvolutions : Obligations.RotationAndInversionAreInvolutions := by
  refine ⟨rotate_rotate, invertTilt_invertTilt, fun o => ⟨synthesize_synthesize o, resolveMy_resolveMy o⟩,
    fun o c hpairing hmy => ?_⟩
  obtain ⟨rot, inv, _ | _, pair⟩ := c
  · obtain rfl : pair = false := hpairing
    simp [normalizeObject_inbound_unpaired]
  · have notMy : o.cmd ≠ some .my := hmy rfl
    simp [normalizeObject_outbound_eq, resolveMy_applySettings, resolveMy_of_ne_my notMy]

/-- Settles O50: the rewrites two by two. -/
theorem normalizerStepsCommute : Obligations.NormalizerStepsCommute := by
  intro o d
  refine ⟨invertTilt_rotate o d, ?both, resolveMy_rotate o d, resolveMy_invertTilt o,
    fun hflags => ⟨synthesize_rotate d hflags, synthesize_invertTilt hflags⟩⟩
  case both => simp [invertTilt, rotate]

/-- Settles O51: the identity fields through every rewrite, and the unrecognised names field by field. -/
theorem normalizerKeepsIdentityFields : Obligations.NormalizerKeepsIdentityFields := by
  intro o d c same
  have start := sameIdentity_refl o
  refine ⟨sameIdentity_synthesize start, sameIdentity_rotate d start, sameIdentity_invertTilt start,
    sameIdentity_resolveMy start, sameIdentity_normalizeObject c, fun k => ⟨fun h => ?cmd, fun h => ?state,
    fun h => ?direction, fun h => ?tilt⟩⟩
  case cmd => rw [h]; exact ⟨rotate_cmd_of_other h, normalizeObject_cmd_of_other c h⟩
  case state => rw [h]; exact ⟨by simp [h], normalizeObject_state_of_other c h⟩
  case direction => simp [rotate, h]
  case tilt => simp [rotate, invertTilt, h]

end Sys2Proof.Machine

/-!
The laws of the pipelines and the order of the outcomes (spec/45_pipelines.md R172, R173, 60_exceptions.md R187,
10_state.md R24): the object a frame carries over the wire and what settings at both ends do to it, the stages through
the ports, then obligations O54 to O58.
-/

namespace Sys2Proof.Machine

/-! ### The object that FENC and then FDEC carry over -/

/-- What the receiver's FDEC makes of what the sender's FENC sends for `o`. -/
def carried (o : DataObject) : Except Reason DataObject := (bytesFromFrame o).bind frameFromBytes

theorem carried_of_ok {o : DataObject} {bytes : List Byte} (h : bytesFromFrame o = .ok bytes) :
    carried o = frameFromBytes bytes := by
  rw [carried, h]
  rfl

/-- FENC gives bytes for an address and a name with a code. -/
theorem sentBytes_of_bytesFromFrame_ok {o : DataObject} {bytes : List Byte} (h : bytesFromFrame o = .ok bytes) :
    ∃ a m code, o.address = some a ∧ selectName o = some m ∧ nameForCode code = .ok m ∧
      bytes = sentBytes a code (o.unit.getD 0) (isTilt o) := by
  obtain ⟨a, code, haddress, hcode, hbytes⟩ := bytesFromFrame_ok h
  cases hname : selectName o with
  | none => simp [hname] at hcode
  | some m => exact ⟨a, m, code, haddress, rfl, (nameForCode_eq_ok_iff code m).mpr (hname ▸ hcode), hbytes⟩

theorem carried_of_name {o : DataObject} {a : BitVec 16} {m : CmdName} {code : Nibble} (haddress : o.address = some a)
    (hname : selectName o = some m) (hcode : nameForCode code = .ok m) :
    carried o = .ok (decodedObject a (o.unit.getD 0) m (isTilt o)) := by
  rw [carried_of_ok (bytesFromFrame_eq_sentBytes haddress hname hcode), frameFromBytes_sentBytes _ _ _ hcode]

/-- The receiver always understands what FENC sends, so nothing is carried exactly when FENC fails (R132). -/
theorem carried_eq_error_iff {o : DataObject} {e : Reason} : carried o = .error e ↔ bytesFromFrame o = .error e := by
  cases h : bytesFromFrame o with
  | error e' => simp [carried, h, Except.bind]
  | ok bytes =>
    obtain ⟨a, m, code, haddress, hname, hcode, _⟩ := sentBytes_of_bytesFromFrame_ok h
    simp [carried_of_name haddress hname hcode]

/-! ### Rotation at both ends -/

/-- A rotated object selects the swapped name; the deep-travel swap is in `cmd` alone (R151). -/
theorem selectName_rotate {o : DataObject} (hflags : ¬ (o.tiltUp = true ∧ o.tiltDown = true)) :
    selectName (rotate o .outbound) = swapDeep (swapUD (selectName o)) ∨
    selectName (rotate o .outbound) = swapUD (selectName o) := by
  cases hup : o.tiltUp with
  | true =>
    have hdown : o.tiltDown = false := by simpa [hup] using hflags
    simp [selectName, rotate, hup, hdown]
  | false =>
    cases hdown : o.tiltDown with
    | true => simp [selectName, rotate, hup, hdown]
    | false =>
      rw [selectName_of_no_tilt hup hdown, selectName_of_no_tilt (o := rotate o .outbound) hdown hup]
      cases hcmd : o.cmd with
      | none => exact .inr (by simp [rotate, hcmd, swapUD, swapDeep])
      | some m =>
        refine .inl ?_
        cases m <;> simp [rotate, hcmd, swapUD, swapDeep]

/-- When the selected name has a code, the rotated object selects the swapped name, which has a code too. -/
theorem selectName_rotate_of_code {o : DataObject} (hflags : ¬ (o.tiltUp = true ∧ o.tiltDown = true)) {m : CmdName}
    {code : Nibble} (hname : selectName o = some m) (hcode : nameForCode code = .ok m) :
    ∃ m' code', selectName (rotate o .outbound) = some m' ∧ nameForCode code' = .ok m' ∧
      swapUD (some m) = some m' := by
  have turned := selectName_rotate hflags
  rw [hname] at turned
  have found : (∃ c, codeForName (some m) = .ok c) := ⟨code, (nameForCode_eq_ok_iff code m).mp hcode⟩
  rw [codeForName_isOk_iff] at found
  simp only [List.mem_cons, List.not_mem_nil, or_false, Option.some.injEq] at found
  obtain rfl | rfl | rfl | rfl | rfl := found
  · exact ⟨.down, 0x1, turned.elim id id, rfl, rfl⟩
  · exact ⟨.up, 0xC, turned.elim id id, rfl, rfl⟩
  · exact ⟨.idle, 0x5, turned.elim id id, rfl, rfl⟩
  · exact ⟨.confirm, 0x4, turned.elim id id, rfl, rfl⟩
  · exact ⟨.setLimit, 0x2, turned.elim id id, rfl, rfl⟩

/-- Rotating a decoded object inbound is decoding the swapped name. -/
theorem rotate_decodedObject (a : BitVec 16) (u : Nibble) (tilt : Bool) {m m' : CmdName}
    (hswap : swapUD (some m) = some m') : rotate (decodedObject a u m tilt) .inbound = decodedObject a u m' tilt := by
  cases m with
  | up | down =>
    obtain rfl := Option.some.inj hswap
    cases tilt <;> rfl
  | idle | confirm | setLimit | my | deepUp | deepDown | other =>
    obtain rfl := Option.some.inj hswap
    rfl

@[simp] theorem isTilt_rotate (o : DataObject) (d : Direction) : isTilt (rotate o d) = isTilt o :=
  Bool.or_comm _ _

/-- An object can be sent rotated exactly when it can be sent. -/
theorem bytesFromFrame_rotate_ok {o : DataObject} (hflags : ¬ (o.tiltUp = true ∧ o.tiltDown = true)) {bytes : List Byte}
    (h : bytesFromFrame o = .ok bytes) : ∃ bytes', bytesFromFrame (rotate o .outbound) = .ok bytes' := by
  obtain ⟨a, m, code, haddress, hname, hcode, _⟩ := sentBytes_of_bytesFromFrame_ok h
  obtain ⟨m', code', hname', hcode', _⟩ := selectName_rotate_of_code hflags hname hcode
  exact ⟨_, bytesFromFrame_eq_sentBytes (o := rotate o .outbound) haddress hname' hcode'⟩

/-- Rotation before sending is rotation of what is received. -/
theorem carried_rotate {o : DataObject} (hflags : ¬ (o.tiltUp = true ∧ o.tiltDown = true)) :
    carried (rotate o .outbound) = (carried o).map (rotate · .inbound) := by
  cases h : bytesFromFrame o with
  | ok bytes =>
    obtain ⟨a, m, code, haddress, hname, hcode, _⟩ := sentBytes_of_bytesFromFrame_ok h
    obtain ⟨m', code', hname', hcode', hswap⟩ := selectName_rotate_of_code hflags hname hcode
    rw [carried_of_name haddress hname hcode, carried_of_name (o := rotate o .outbound) haddress hname' hcode',
      isTilt_rotate, Except.map, rotate_decodedObject _ _ _ hswap]
    rfl
  | error e =>
    have fails : ∃ e', bytesFromFrame (rotate o .outbound) = .error e' := by
      cases h' : bytesFromFrame (rotate o .outbound) with
      | error e' => exact ⟨e', rfl⟩
      | ok bytes' =>
        have hflags' : ¬ ((rotate o .outbound).tiltUp = true ∧ (rotate o .outbound).tiltDown = true) :=
          fun both => hflags both.symm
        obtain ⟨_, back⟩ := bytesFromFrame_rotate_ok hflags' h'
        simp [h] at back
    obtain ⟨e', h'⟩ := fails
    rw [carried_eq_error_iff.mpr h, carried_eq_error_iff.mpr h', bytesFromFrame_error h, bytesFromFrame_error h']
    rfl

/-! ### Inversion at both ends -/

/-- Inversion does nothing to an object that was sent without a tilt flag. -/
theorem invertTilt_decodedObject (a : BitVec 16) (u : Nibble) (m : CmdName) :
    invertTilt (decodedObject a u m false) = decodedObject a u m false := by
  cases m <;> rfl

/-- Without a tilt flag inversion touches nothing that is sent, and nothing of what is received. -/
theorem carried_invertTilt {o : DataObject} (hup : o.tiltUp = false) (hdown : o.tiltDown = false) :
    carried (invertTilt o) = (carried o).map invertTilt := by
  have sameName : selectName (invertTilt o) = selectName o := by
    rw [selectName_of_no_tilt hup hdown, selectName_of_no_tilt (o := invertTilt o) hdown hup]
    rfl
  have sameTilt : isTilt (invertTilt o) = isTilt o := by simp [isTilt, invertTilt, hup, hdown]
  have sameBytes : bytesFromFrame (invertTilt o) = bytesFromFrame o := bytesFromFrame_congr rfl sameName rfl sameTilt
  have same : carried (invertTilt o) = carried o := by rw [carried, sameBytes, carried]
  rw [same]
  cases h : bytesFromFrame o with
  | ok bytes =>
    obtain ⟨a, m, code, haddress, hname, hcode, _⟩ := sentBytes_of_bytesFromFrame_ok h
    have noTilt : isTilt o = false := by simp [isTilt, hup, hdown]
    rw [carried_of_name haddress hname hcode, noTilt, Except.map, invertTilt_decodedObject]
  | error e =>
    rw [carried_eq_error_iff.mpr h]
    rfl

/-- The settings applied before sending are the settings applied to what is received. -/
theorem carried_applySettings {o : DataObject} {rot inv : Bool} (hflags : ¬ (o.tiltUp = true ∧ o.tiltDown = true))
    (hinv : inv = true → o.tiltUp = false ∧ o.tiltDown = false) :
    carried (applySettings rot inv .outbound o) = (carried o).map (applySettings rot inv .inbound) := by
  have rotated : carried (applySettings rot false .outbound o) =
      (carried o).map (applySettings rot false .inbound) := by
    cases rot with
    | false => cases h : carried o <;> simp [applySettings, h, Except.map]
    | true => exact carried_rotate hflags
  cases inv with
  | false => exact rotated
  | true =>
    obtain ⟨hup, hdown⟩ := hinv rfl
    have noFlags : (applySettings rot false .outbound o).tiltUp = false ∧
        (applySettings rot false .outbound o).tiltDown = false := by
      cases rot with
      | false => exact ⟨hup, hdown⟩
      | true => exact ⟨hdown, hup⟩
    calc carried (applySettings rot true .outbound o)
        = (carried (applySettings rot false .outbound o)).map invertTilt := carried_invertTilt noFlags.1 noFlags.2
      _ = ((carried o).map (applySettings rot false .inbound)).map invertTilt := by rw [rotated]
      _ = (carried o).map (applySettings rot true .inbound) := by cases carried o <;> rfl

/-! ### RX of what TX sent (R172) -/

theorem transmit_eq_error_iff {o : DataObject} {c : Ctl} {e : Reason} : transmit o c = .error e ↔
    bytesFromFrame (normalizeObject o { c with dir := .outbound }) = .error e := by
  rw [transmit_eq_map]
  cases bytesFromFrame (normalizeObject o { c with dir := .outbound }) <;> simp [Except.map]

@[simp] theorem resolveMy_tiltUp (o : DataObject) : (resolveMy o).tiltUp = o.tiltUp := by
  unfold resolveMy
  split_ifs <;> rfl

@[simp] theorem resolveMy_tiltDown (o : DataObject) : (resolveMy o).tiltDown = o.tiltDown := by
  unfold resolveMy
  split_ifs <;> rfl

/-- Without settings RX is FDEC on the bytes of the frame (R172 (b)). -/
theorem receive_bytesToBits_plain (bytes : List Byte) :
    receive (bytesToBits bytes) ⟨false, false, .inbound, false⟩ = frameFromBytes bytes := by
  rw [receive_bytesToBits]
  cases frameFromBytes bytes <;> rfl

/-! ### The stages through the ports (R173) -/

/-- `rsp_rn` of B2BY is 0 exactly when the bits are whole bytes. -/
theorem rn_eq_zero_iff (bits : List Bool) : (rspBytesResidue (bitsToBytes bits)).rn = 0 ↔ bits.length % 8 = 0 := by
  rw [← BitVec.toNat_inj, rspBytesResidue_rn _ (bitsToBytes_residue_lt bits), bitsToBytes_residue_length]
  rfl

/-- A reply that fails is the no-result response of its outcome. -/
theorem reply_eq_answer_of_fail {α : Type} {form : α → Rsp} (hform : ∀ v, (form v).ok = true) {s : State}
    {x : Except Reason α} {r : Rsp} (hfail : r.ok = false) (h : s.reply form x = s.answer r) :
    ∃ e, x = .error e ∧ r = rspNoResult e := by
  cases x with
  | ok v =>
    obtain rfl := (answer_inj s _ _).mp h
    simp [hform] at hfail
  | error e => exact ⟨e, rfl, ((answer_inj s _ _).mp h).symm⟩

/-! ### Control bits (R24) -/

/-- The requests of the operations that read no control bit do not depend on `req_ctl`. -/
theorem decode_request_ctl (r : Request) (ctl : BitVec 4) (h : r.op.toNat ∉ [0x9, 0xA, 0xB, 0xC]) :
    decode (.request { r with ctl := ctl }) = decode (.request r) := by
  simp only [List.mem_cons, List.not_mem_nil, or_false, not_or] at h
  obtain ⟨norm, rx, tx, rot⟩ := h
  simp only [decode, decodeRequest]
  split
  case h_10 | h_11 | h_12 | h_13 => contradiction
  all_goals rfl

/-- ROT's requests have the same effect when they agree in bit 2 of `req_ctl` (R151). -/
theorem exec_rot_of_dir {o : DataObject} {ctl ctl' : Ctl} (h : ctl.dir = ctl'.dir) (s : State) :
    exec (.rot o ctl) s = exec (.rot o ctl') s := by
  rw [exec_rot, exec_rot, h]

/-! ### The obligations -/

/-- Settles O54: FENC's five bytes through BY2B and B2BY. -/
theorem wireCarriesTheFrameUnchanged : Obligations.WireCarriesTheFrameUnchanged := by
  intro o c bits h
  obtain ⟨bytes, hbytes, hlen, rfl⟩ := transmit_ok h
  exact ⟨bytes, hbytes, by rw [bytesToBits_length, hlen], bitsToBytes_bytesToBits bytes,
    receive_bytesToBits_plain bytes⟩

/-- Settles O55: the settings move from before the wire to behind it, where they meet themselves. -/
theorem settingsCancelOverTheWire : Obligations.SettingsCancelOverTheWire := by
  intro o ⟨rot, inv, dir, pair⟩ hpairing hflags hinv
  obtain rfl : pair = false := hpairing
  have normalized : normalizeObject o ⟨rot, inv, .outbound, false⟩ = applySettings rot inv .outbound (resolveMy o) := by
    rw [normalizeObject_outbound_eq, resolveMy_applySettings]
  have moved : carried (normalizeObject o ⟨rot, inv, .outbound, false⟩) =
      (carried (resolveMy o)).map (applySettings rot inv .inbound) := by
    rw [normalized, carried_applySettings (by simpa using hflags) (by simpa using hinv)]
  have fails (e : Reason) : transmit o ⟨rot, inv, dir, false⟩ = .error e ↔
      bytesFromFrame (resolveMy o) = .error e := by
    rw [transmit_eq_error_iff, ← carried_eq_error_iff, ← carried_eq_error_iff, moved]
    cases carried (resolveMy o) <;> simp [Except.map]
  refine ⟨fails, fun bits hsent => ?_⟩
  obtain ⟨sent, hbytes, _, rfl⟩ := transmit_ok hsent
  cases hplain : bytesFromFrame (resolveMy o) with
  | error e => simp [(fails e).mpr hplain] at hsent
  | ok bytes =>
    refine ⟨bytes, rfl, ?_⟩
    calc receive (bytesToBits sent) ⟨rot, inv, dir, false⟩
        = (frameFromBytes sent).map (normalizeObject · ⟨rot, inv, .inbound, false⟩) := receive_bytesToBits sent _
      _ = ((carried (resolveMy o)).map (applySettings rot inv .inbound)).map (applySettings rot inv .inbound) := by
          simp only [normalizeObject_inbound_unpaired, ← moved, carried_of_ok hbytes]
      _ = carried (resolveMy o) := by cases carried (resolveMy o) <;> simp [Except.map]
      _ = frameFromBytes bytes := carried_of_ok hplain

/-- Settles O56: each stage's response ports are the encoding of the next stage's request. -/
theorem stagesChainThroughThePorts : Obligations.StagesChainThroughThePorts := by
  refine ⟨fun bits c s hfits => ?rx, fun o c s => ?tx⟩
  case rx =>
    intro inbound
    refine ⟨encodedInstructionDecodesBack (.b2by bits) (decide_eq_true hfits), _, exec_b2by bits s,
      fun hresidue => ?residue, fun haligned => ?aligned⟩
    case residue =>
      rw [exec_rx, receive_of_residue (mt (rn_eq_zero_iff bits).mpr hresidue)]
      rfl
    case aligned =>
      have stages := receive_of_aligned c ((rn_eq_zero_iff bits).mp haligned)
      have request := encodedInstructionDecodesBack (.fdec (bitsToBytes bits).1)
        (decide_eq_true (bitsToBytes_fits hfits))
      refine ⟨(bitsToBytes bits).1, ?_⟩
      rw [exec_fdec, exec_rx, stages]
      cases frameFromBytes (bitsToBytes bits).1 with
      | ok d =>
        exact ⟨rspObject d, request, rfl, by simp, fun _ =>
          ⟨d, encodedInstructionDecodesBack (.norm d inbound) rfl, rfl⟩⟩
      | error e => exact ⟨rspNoResult e, request, rfl, fun _ => rfl, by simp⟩
  case tx =>
    intro outbound
    refine ⟨encodedInstructionDecodesBack (.norm o outbound) rfl, _, exec_norm o outbound s,
      normalizeObject o outbound, ?_⟩
    have request := encodedInstructionDecodesBack (.fenc (normalizeObject o outbound)) rfl
    rw [exec_fenc, exec_tx, transmit_eq_map]
    cases hbytes : bytesFromFrame (normalizeObject o outbound) with
    | ok bytes =>
      have fits : bytes.length ≤ Config.maxBytes := (bytesFromFrame_length hbytes).trans_le five_le_maxBytes
      exact ⟨rspBytes bytes, request, rfl, by simp, fun _ =>
        ⟨bytes, encodedInstructionDecodesBack (.by2b bytes) (decide_eq_true fits), rfl⟩⟩
    | error e => exact ⟨rspNoResult e, request, rfl, fun _ => rfl, by simp⟩

/-- Settles O57: RX and TX force the direction, TX is outbound, and ROT reads bit 2. -/
theorem controlBitsNotReadAreIgnored : Obligations.ControlBitsNotReadAreIgnored := by
  refine ⟨fun bits c d s => rfl, fun o c d p s => ?tx, decode_request_ctl, fun r ctl hop hdir => ?rot⟩
  case tx =>
    rw [exec_tx, exec_tx, transmit_eq_map, transmit_eq_map,
      normalizeObject_outbound_pairing o c.rot180 c.invertTilt p c.pairing]
  case rot =>
    refine ⟨_, _, decode_rot hop, decode_rot (r := { r with ctl := ctl }) hop, fun s => exec_rot_of_dir ?_ s⟩
    simp only [unpackCtl, hdir]

/-- Settles O58: the order of FDEC's tests, RX's residue test, and the only failure of FENC. -/
theorem firstCauseIsReported : Obligations.FirstCauseIsReported := by
  have malformed (bytes : List Byte) (s : State) (h : bytes.length < 5 ∨ verifies bytes = false) :
      exec (.fdec bytes) s = .next (s.answer (noResult 1)) :=
    exec_fdec_of_malformed (h.elim frameFromBytes_of_short frameFromBytes_of_not_verified)
  refine ⟨malformed, fun bits c s hresidue => ?residue, fun s => malformed _ s (.inr (by decide)),
    fun o c s r hfail hanswer => ?encode⟩
  case residue =>
    rw [exec_rx, receive_of_residue hresidue]
    rfl
  case encode =>
    have unresolvable {o' : DataObject} {e : Reason} (h : bytesFromFrame o' = .error e)
        (hr : r = rspNoResult e) : r = noResult 3 := by
      rw [hr, bytesFromFrame_error h, rspNoResult_eq_noResult, reasonCode]
    obtain hfenc | htx := hanswer
    · rw [exec_fenc, next_inj] at hfenc
      obtain ⟨e, herror, hr⟩ := reply_eq_answer_of_fail rspBytes_ok hfail hfenc
      exact unresolvable herror hr
    · rw [exec_tx, next_inj] at htx
      obtain ⟨e, herror, hr⟩ := reply_eq_answer_of_fail rspBits_ok hfail htx
      exact unresolvable (transmit_eq_error_iff.mp herror) hr

end Sys2Proof.Machine
